-- ==== Sys2Proof/Word.lean ====
section
/-! DEFINITION. The vocabulary of the transmitter: levels, bytes, words, the three lines, the frame's kind and width,
the line operations and the events they leave in the trace. Plain types only. -/

namespace Sys2Proof

/-- A level of a line, and a bit on the wire: `false` is level 0 (low), `true` is level 1 (high); `!v` is the other level
(R9). -/
abbrev Level := Bool

/-- A byte; bit 7 is the most significant (R9). -/
abbrev Byte := BitVec 8

/-- A word as a value: at most 4 bytes, so 32 bits (R8, R40). -/
abbrev Word := BitVec 32

/-- The three logical lines (R8, R9). -/
inductive Line where
  | cs
  | scl
  | sda
deriving DecidableEq, Repr

/-- One value per logical line. -/
structure Lines (α : Type) where
  cs  : α
  scl : α
  sda : α
deriving DecidableEq, Repr

def Lines.get {α : Type} (ls : Lines α) : Line → α
  | .cs  => ls.cs
  | .scl => ls.scl
  | .sda => ls.sda

def Lines.set {α : Type} (ls : Lines α) (l : Line) (a : α) : Lines α :=
  match l with
  | .cs  => { ls with cs := a }
  | .scl => { ls with scl := a }
  | .sda => { ls with sda := a }

/-- The byte width of a word: 1, 2, 3 or 4 (R8, R25, R26). -/
inductive Width where
  | w1
  | w2
  | w3
  | w4
deriving DecidableEq, Repr

/-- The width as a number of bytes. -/
def Width.bytes : Width → Nat
  | .w1 => 1
  | .w2 => 2
  | .w3 => 3
  | .w4 => 4

/-- What a frame carries (R17, R100). -/
inductive FrameKind where
  | command
  | parameter
deriving DecidableEq, Repr

/-- The discriminator policy (R28). -/
inductive DcPolicy where
  | disabled
  | lowMeansCommand
  | lowMeansData
deriving DecidableEq, Repr

/-- The clock transition on which the receiver samples (R31). -/
inductive Edge where
  | rising
  | falling
deriving DecidableEq, Repr

/-- The two ways a delay is executed (R155). -/
inductive DelayMode where
  | busy
  | sleep
deriving DecidableEq, Repr

/-- The three line operations (R130). -/
inductive LineOp where
  | cfgOut (l : Line)
  | set (l : Line) (v : Level)
  | rel (l : Line)
deriving DecidableEq, Repr

/-- The events of the trace (R12). `ok` tells whether the operation succeeded. -/
inductive Event where
  | cfgOut (l : Line) (ok : Bool)
  | set (l : Line) (v : Level) (ok : Bool)
  | rel (l : Line) (ok : Bool)
  | dly (us : Nat) (mode : DelayMode)
deriving DecidableEq, Repr

/-- The four results of a host operation (R250). They have no numbers (R254). -/
inductive Result where
  | ok
  | invalidArgument
  | ioError
  | notSupported
deriving DecidableEq, Repr

end Sys2Proof
end

