-- ==== Sys2Proof/Config.lean ====
section
/-! DEFINITION. What construction fixes (the option record, the BusConfiguration, the line bindings), what the platform
fixes (the clock ceiling, the mode table), and the free values the spec leaves open. -/

namespace Sys2Proof

/-- A line option of the construction record: a native pin, or an expander pin whose handle may be absent (R90, R99).
Ids and handles are opaque values of no stated range (R34, N9). -/
inductive LineOption where
  | native (id : Nat)
  | expander (handle : Option Nat) (id : Nat)
deriving DecidableEq, Repr

/-- Where a logical line goes once it is bound (R34). -/
inductive LineBinding where
  | native (id : Nat)
  | expander (handle : Nat) (id : Nat)
deriving DecidableEq, Repr

/-- The construction-option record (R90). `spiMode` is a 2-bit number (R114). -/
structure Options where
  csLine                     : LineOption
  sclLine                    : LineOption
  sdaLine                    : LineOption
  clockHz                    : Option Nat
  commandByteWidth           : Nat
  parameterByteWidth         : Nat
  useDiscriminatorBit        : Bool
  discriminatorLowMeansData  : Bool
  lsbFirst                   : Bool
  csActiveHigh               : Bool
  spiMode                    : BitVec 2
  keepCsAssertedOnTeardown   : Bool
deriving DecidableEq, Repr

/-- The BusConfiguration `cfg` (R23 to R32). `csActive` is `A`; `halfPeriodUs` is `H`. -/
structure BusConfig where
  clockHz      : Nat
  halfPeriodUs : Nat
  cmdBytes     : Width
  paramBytes   : Width
  lsbFirst     : Bool
  dcPolicy     : DcPolicy
  csActive     : Level
  sclIdle      : Level
  sdaIdle      : Level
  activeEdge   : Edge
  keepCs       : Bool
deriving DecidableEq, Repr

/-- One row of MODE_DECODE: the clock's idle level and the active edge (R7, R97). -/
structure ModeRow where
  idle : Level
  edge : Edge
deriving DecidableEq, Repr

/-- MODE_DECODE as plain data, one row per `spi_mode` (R7, R97). -/
structure ModeTable where
  mode0 : ModeRow
  mode1 : ModeRow
  mode2 : ModeRow
  mode3 : ModeRow
deriving DecidableEq, Repr

/-- The platform's parameters: CLK_MAX_HZ and MODE_DECODE (R7, R43). No step changes them. -/
structure Platform where
  clkMaxHz   : Nat
  modeDecode : ModeTable
deriving DecidableEq, Repr

/-- The oracle IO_OK past the answers the state lists: any function of the trace so far and the operation asked (R14).
A free value: nothing constrains it (log 3). -/
opaque Config.ioOk : List Event → LineOp → Bool

/-- CLK_MAX_HZ is this free value plus 1: a natural number, at least 1, that the source does not give (R7, D4; log 4). -/
opaque Config.clkMaxHzPred : Nat

/-- SLEEP_REALISED: what a cooperative sleep of so many microseconds really waits, any duration (R7, R158, D6). The model
has no time and no rule reads it (log 9). -/
opaque Config.sleepRealised : Nat → Nat

end Sys2Proof
end

