-- ==== Sys2Proof/Syntax.lean ====
section
/-! DEFINITION. The instructions: the six host operations and the 24 frame formats, one constructor per row of
spec/opcode_table.json. -/

namespace Sys2Proof

/-- The instructions. A host operation carries the operands its rule gives it: CREATE the option record (R90), TRANSMIT an
optional signed 32-bit command (R216) and an optional byte buffer (R61); the three unsupported operations ignore their
operands, which the spec does not give (R226 to R228). A frame format carries the word to send (R192). -/
inductive Instr where
  /-- CREATE (R211). -/
  | create (opts : Options)
  /-- TRANSMIT (R215). -/
  | transmit (cmd : Option Word) (params : Option (List Byte))
  /-- TEARDOWN (R221). -/
  | teardown
  /-- RX_PARAM (R226). -/
  | rxParam
  /-- TX_COLOR (R227). -/
  | txColor
  /-- REGISTER_CALLBACKS (R228). -/
  | registerCallbacks
  /-- FRAME.C.N.W1 (R107, R192). -/
  | frameCNW1 (v : Word)
  /-- FRAME.C.N.W2 (R107, R192). -/
  | frameCNW2 (v : Word)
  /-- FRAME.C.N.W3 (R107, R192). -/
  | frameCNW3 (v : Word)
  /-- FRAME.C.N.W4 (R107, R192). -/
  | frameCNW4 (v : Word)
  /-- FRAME.C.LC.W1 (R107, R192). -/
  | frameCLCW1 (v : Word)
  /-- FRAME.C.LC.W2 (R107, R192). -/
  | frameCLCW2 (v : Word)
  /-- FRAME.C.LC.W3 (R107, R192). -/
  | frameCLCW3 (v : Word)
  /-- FRAME.C.LC.W4 (R107, R192). -/
  | frameCLCW4 (v : Word)
  /-- FRAME.C.LD.W1 (R107, R192). -/
  | frameCLDW1 (v : Word)
  /-- FRAME.C.LD.W2 (R107, R192). -/
  | frameCLDW2 (v : Word)
  /-- FRAME.C.LD.W3 (R107, R192). -/
  | frameCLDW3 (v : Word)
  /-- FRAME.C.LD.W4 (R107, R192). -/
  | frameCLDW4 (v : Word)
  /-- FRAME.P.N.W1 (R107, R192). -/
  | framePNW1 (v : Word)
  /-- FRAME.P.N.W2 (R107, R192). -/
  | framePNW2 (v : Word)
  /-- FRAME.P.N.W3 (R107, R192). -/
  | framePNW3 (v : Word)
  /-- FRAME.P.N.W4 (R107, R192). -/
  | framePNW4 (v : Word)
  /-- FRAME.P.LC.W1 (R107, R192). -/
  | framePLCW1 (v : Word)
  /-- FRAME.P.LC.W2 (R107, R192). -/
  | framePLCW2 (v : Word)
  /-- FRAME.P.LC.W3 (R107, R192). -/
  | framePLCW3 (v : Word)
  /-- FRAME.P.LC.W4 (R107, R192). -/
  | framePLCW4 (v : Word)
  /-- FRAME.P.LD.W1 (R107, R192). -/
  | framePLDW1 (v : Word)
  /-- FRAME.P.LD.W2 (R107, R192). -/
  | framePLDW2 (v : Word)
  /-- FRAME.P.LD.W3 (R107, R192). -/
  | framePLDW3 (v : Word)
  /-- FRAME.P.LD.W4 (R107, R192). -/
  | framePLDW4 (v : Word)
deriving DecidableEq, Repr

end Sys2Proof
end

