-- ==== Sys2Proof/WellFormed.lean ====
section
/-! DEFINITION. Well-formed instructions: a frame's word fits the width of its format; every host operation is well formed
(bad construction options are CREATE's own error result, R212, not ill-formed syntax). -/

namespace Sys2Proof

/-- The word has no bit above the low `8*W` (R105, R107). -/
def Width.fits (w : Width) (v : Word) : Bool :=
  decide (v.toNat < 2 ^ (8 * w.bytes))

/-- A frame format can only carry a word that fits its width; every host operation can be written down as it stands. -/
def Instr.wellFormed : Instr → Bool
  | .create _ => true
  | .transmit _ _ => true
  | .teardown => true
  | .rxParam => true
  | .txColor => true
  | .registerCallbacks => true
  | .frameCNW1 v => Width.fits .w1 v
  | .frameCNW2 v => Width.fits .w2 v
  | .frameCNW3 v => Width.fits .w3 v
  | .frameCNW4 v => Width.fits .w4 v
  | .frameCLCW1 v => Width.fits .w1 v
  | .frameCLCW2 v => Width.fits .w2 v
  | .frameCLCW3 v => Width.fits .w3 v
  | .frameCLCW4 v => Width.fits .w4 v
  | .frameCLDW1 v => Width.fits .w1 v
  | .frameCLDW2 v => Width.fits .w2 v
  | .frameCLDW3 v => Width.fits .w3 v
  | .frameCLDW4 v => Width.fits .w4 v
  | .framePNW1 v => Width.fits .w1 v
  | .framePNW2 v => Width.fits .w2 v
  | .framePNW3 v => Width.fits .w3 v
  | .framePNW4 v => Width.fits .w4 v
  | .framePLCW1 v => Width.fits .w1 v
  | .framePLCW2 v => Width.fits .w2 v
  | .framePLCW3 v => Width.fits .w3 v
  | .framePLCW4 v => Width.fits .w4 v
  | .framePLDW1 v => Width.fits .w1 v
  | .framePLDW2 v => Width.fits .w2 v
  | .framePLDW3 v => Width.fits .w3 v
  | .framePLDW4 v => Width.fits .w4 v

end Sys2Proof
end

