-- ==== Sys2Proof/Decode.lean ====
section
/-! DEFINITION. The wire frame as a bit string (R100 to R107), the decoder and the encoder. The transmitter itself decodes
no instruction words (30_encoding.md): what has an encoding is the wire frame, and the table labels a host operation with a
3-bit selector (R121). A `Code` is one of the two, with what selects its meaning: for a frame its kind, the discriminator
policy, the width and the bit order (R107: cfg and the kind decide the format, never data); for a host operation its
operands, which are named values and have no bit layout (R90). -/

namespace Sys2Proof

/-! ## The wire frame -/

/-- The low `8*W` bits of a value: all that enters a frame (R105). -/
def truncate (w : Width) (v : Word) : Word :=
  BitVec.ofNat 32 (v.toNat % 2 ^ (8 * w.bytes))

/-- `byte_k(v)`: byte `k` of `v`, byte 0 the least significant (R9). -/
def byteOf (v : Word) (k : Nat) : Byte :=
  v.extractLsb' (8 * k) 8

/-- `byte_bits(b)`: the 8 bits of a byte in time order (R100, R104). -/
def byteBits (lsbFirst : Bool) (b : Byte) : List Level :=
  if lsbFirst then
    [b.getLsbD 0, b.getLsbD 1, b.getLsbD 2, b.getLsbD 3, b.getLsbD 4, b.getLsbD 5, b.getLsbD 6, b.getLsbD 7]
  else
    [b.getLsbD 7, b.getLsbD 6, b.getLsbD 5, b.getLsbD 4, b.getLsbD 3, b.getLsbD 2, b.getLsbD 1, b.getLsbD 0]

/-- `cmd_dc` and `param_dc`: the discriminator of a frame, from its kind and the policy alone (R28, R103). -/
def dcOf : FrameKind → DcPolicy → Option Level
  | _,          .disabled        => none
  | .command,   .lowMeansCommand => some false
  | .parameter, .lowMeansCommand => some true
  | .command,   .lowMeansData    => some true
  | .parameter, .lowMeansData    => some false

/-- `dc_bits(k)` (R100). -/
def dcBits (k : FrameKind) (p : DcPolicy) : List Level :=
  (dcOf k p).toList

/-- The low `n` bytes of a value as bits in time order, most significant byte first (R63, R100). -/
def bytesBits (lsbFirst : Bool) (v : Word) : Nat → List Level
  | 0     => []
  | n + 1 => byteBits lsbFirst (byteOf v n) ++ bytesBits lsbFirst v n

/-- `frame_bits(k, v)` (R100). -/
def frameBits (k : FrameKind) (p : DcPolicy) (w : Width) (lsbFirst : Bool) (v : Word) : List Level :=
  dcBits k p ++ bytesBits lsbFirst v w.bytes

/-- The number of bits of a frame: `8*W`, and one more when the discriminator is enabled (R101). -/
def frameLength (p : DcPolicy) (w : Width) : Nat :=
  match p with
  | .disabled => 8 * w.bytes
  | .lowMeansCommand => 8 * w.bytes + 1
  | .lowMeansData => 8 * w.bytes + 1

/-! ## The 24 formats -/

/-- The frame instruction of a kind, a policy and a width (R107). -/
def frameInstr : FrameKind → DcPolicy → Width → Word → Instr
  | .command, .disabled, .w1, v => .frameCNW1 v
  | .command, .disabled, .w2, v => .frameCNW2 v
  | .command, .disabled, .w3, v => .frameCNW3 v
  | .command, .disabled, .w4, v => .frameCNW4 v
  | .command, .lowMeansCommand, .w1, v => .frameCLCW1 v
  | .command, .lowMeansCommand, .w2, v => .frameCLCW2 v
  | .command, .lowMeansCommand, .w3, v => .frameCLCW3 v
  | .command, .lowMeansCommand, .w4, v => .frameCLCW4 v
  | .command, .lowMeansData, .w1, v => .frameCLDW1 v
  | .command, .lowMeansData, .w2, v => .frameCLDW2 v
  | .command, .lowMeansData, .w3, v => .frameCLDW3 v
  | .command, .lowMeansData, .w4, v => .frameCLDW4 v
  | .parameter, .disabled, .w1, v => .framePNW1 v
  | .parameter, .disabled, .w2, v => .framePNW2 v
  | .parameter, .disabled, .w3, v => .framePNW3 v
  | .parameter, .disabled, .w4, v => .framePNW4 v
  | .parameter, .lowMeansCommand, .w1, v => .framePLCW1 v
  | .parameter, .lowMeansCommand, .w2, v => .framePLCW2 v
  | .parameter, .lowMeansCommand, .w3, v => .framePLCW3 v
  | .parameter, .lowMeansCommand, .w4, v => .framePLCW4 v
  | .parameter, .lowMeansData, .w1, v => .framePLDW1 v
  | .parameter, .lowMeansData, .w2, v => .framePLDW2 v
  | .parameter, .lowMeansData, .w3, v => .framePLDW3 v
  | .parameter, .lowMeansData, .w4, v => .framePLDW4 v

/-! ## Codes, decoder, encoder -/

/-- The operands of a host operation, as named values. -/
inductive Operands where
  | none
  | options (opts : Options)
  | transmit (cmd : Option Word) (params : Option (List Byte))
deriving DecidableEq, Repr

/-- An encoded instruction, with what selects its meaning. -/
inductive Code where
  /-- A host operation: its 3-bit table label (R121) and its operands. -/
  | hostOp (selector : BitVec 3) (operands : Operands)
  /-- A wire frame: what selects its format (R107), the bit order (R104) and the bits, first in time first. -/
  | wire (kind : FrameKind) (policy : DcPolicy) (width : Width) (lsbFirst : Bool) (bits : List Level)
deriving DecidableEq, Repr

/-- Why a code is no instruction. -/
inductive DecodeError where
  /-- Selectors 110 and 111 name no operation (R121). -/
  | noSuchOperation
  /-- CREATE without an option record, TRANSMIT without its operands, TEARDOWN with operands. -/
  | operandsMismatch
  /-- A bit string that is not as long as its format (R101). -/
  | wrongFrameLength
  /-- The first bit is not the discriminator the kind and the policy give (R103). -/
  | wrongDiscriminator
deriving DecidableEq, Repr

/-- What the decoder answers. -/
inductive Decoded where
  | instr (i : Instr)
  | rejected (e : DecodeError)
deriving DecidableEq, Repr

/-- A bit string read as a number, first bit most significant. -/
def bitsToNat (bits : List Level) : Nat :=
  bits.foldl (fun n b => 2 * n + b.toNat) 0

/-- One wire byte as a number, in the frame's bit order (R65, R102). -/
def wireByte (lsbFirst : Bool) (bits : List Level) : Nat :=
  bitsToNat (if lsbFirst then bits.reverse else bits)

/-- `n` wire bytes as a big-endian number on top of what was read before (R65). -/
def wireValue (lsbFirst : Bool) : Nat → List Level → Nat → Nat
  | 0,     _,    acc => acc
  | n + 1, bits, acc => wireValue lsbFirst n (bits.drop 8) (acc * 256 + wireByte lsbFirst (bits.take 8))

/-- A frame's bits read back as its word, or the reason why they are no frame of that format (R65, R101 to R104). -/
def decodeFrame (k : FrameKind) (p : DcPolicy) (w : Width) (lsbFirst : Bool) (bits : List Level) : Decoded :=
  if bits.length ≠ frameLength p w then .rejected .wrongFrameLength
  else if bits.take (dcBits k p).length ≠ dcBits k p then .rejected .wrongDiscriminator
  else .instr (frameInstr k p w
    (BitVec.ofNat 32 (wireValue lsbFirst w.bytes (bits.drop (dcBits k p).length) 0)))

/-- The host operation of a selector and its operands (R121). The three unsupported operations take any operands and
ignore them (R226 to R228). -/
def decodeHostOp (selector : BitVec 3) (operands : Operands) : Decoded :=
  match selector.toNat, operands with
  | 0, .options o => .instr (.create o)
  | 1, .transmit c ps => .instr (.transmit c ps)
  | 2, .none => .instr .teardown
  | 3, _ => .instr .rxParam
  | 4, _ => .instr .txColor
  | 5, _ => .instr .registerCallbacks
  | 0, _ => .rejected .operandsMismatch
  | 1, _ => .rejected .operandsMismatch
  | 2, _ => .rejected .operandsMismatch
  | _, _ => .rejected .noSuchOperation

/-- The decoder, total on every code. -/
def decode : Code → Decoded
  | .hostOp sel ops => decodeHostOp sel ops
  | .wire k p w lsb bits => decodeFrame k p w lsb bits

/-- A word as the wire frame of a format (R100, R107). -/
def encodeFrame (k : FrameKind) (p : DcPolicy) (w : Width) (lsbFirst : Bool) (v : Word) : Code :=
  .wire k p w lsbFirst (frameBits k p w lsbFirst v)

/-- The encoder: the selector label and operands of a host operation (R121), the wire frame of a frame instruction in the
given bit order (R100, R107). -/
def encode (lsbFirst : Bool) : Instr → Code
  | .create o => .hostOp 0#3 (.options o)
  | .transmit c ps => .hostOp 1#3 (.transmit c ps)
  | .teardown => .hostOp 2#3 .none
  | .rxParam => .hostOp 3#3 .none
  | .txColor => .hostOp 4#3 .none
  | .registerCallbacks => .hostOp 5#3 .none
  | .frameCNW1 v => encodeFrame .command .disabled .w1 lsbFirst v
  | .frameCNW2 v => encodeFrame .command .disabled .w2 lsbFirst v
  | .frameCNW3 v => encodeFrame .command .disabled .w3 lsbFirst v
  | .frameCNW4 v => encodeFrame .command .disabled .w4 lsbFirst v
  | .frameCLCW1 v => encodeFrame .command .lowMeansCommand .w1 lsbFirst v
  | .frameCLCW2 v => encodeFrame .command .lowMeansCommand .w2 lsbFirst v
  | .frameCLCW3 v => encodeFrame .command .lowMeansCommand .w3 lsbFirst v
  | .frameCLCW4 v => encodeFrame .command .lowMeansCommand .w4 lsbFirst v
  | .frameCLDW1 v => encodeFrame .command .lowMeansData .w1 lsbFirst v
  | .frameCLDW2 v => encodeFrame .command .lowMeansData .w2 lsbFirst v
  | .frameCLDW3 v => encodeFrame .command .lowMeansData .w3 lsbFirst v
  | .frameCLDW4 v => encodeFrame .command .lowMeansData .w4 lsbFirst v
  | .framePNW1 v => encodeFrame .parameter .disabled .w1 lsbFirst v
  | .framePNW2 v => encodeFrame .parameter .disabled .w2 lsbFirst v
  | .framePNW3 v => encodeFrame .parameter .disabled .w3 lsbFirst v
  | .framePNW4 v => encodeFrame .parameter .disabled .w4 lsbFirst v
  | .framePLCW1 v => encodeFrame .parameter .lowMeansCommand .w1 lsbFirst v
  | .framePLCW2 v => encodeFrame .parameter .lowMeansCommand .w2 lsbFirst v
  | .framePLCW3 v => encodeFrame .parameter .lowMeansCommand .w3 lsbFirst v
  | .framePLCW4 v => encodeFrame .parameter .lowMeansCommand .w4 lsbFirst v
  | .framePLDW1 v => encodeFrame .parameter .lowMeansData .w1 lsbFirst v
  | .framePLDW2 v => encodeFrame .parameter .lowMeansData .w2 lsbFirst v
  | .framePLDW3 v => encodeFrame .parameter .lowMeansData .w3 lsbFirst v
  | .framePLDW4 v => encodeFrame .parameter .lowMeansData .w4 lsbFirst v

/-! ## The opcode table's words

The table's rows overlap: a command row and a parameter row of one policy and width are the same bits, a 9-bit row padded to
two bytes looks like a 16-bit row, and the selectors are labels beside 8-bit frames. R107 and R121 say why: the format is
chosen by `cfg` and the kind, and no hardware decodes a selector. `tableCode` picks one reading of a bare word, by the
number of its bytes (log 10). -/

/-- The operands a bare selector stands for, where its operation needs some (log 10). -/
def defaultOptions : Options where
  csLine                    := .native 0
  sclLine                   := .native 1
  sdaLine                   := .native 2
  clockHz                   := none
  commandByteWidth          := 1
  parameterByteWidth        := 1
  useDiscriminatorBit       := false
  discriminatorLowMeansData := false
  lsbFirst                  := false
  csActiveHigh              := false
  spiMode                   := 0#2
  keepCsAssertedOnTeardown  := false

/-- The operands put beside a bare selector. -/
def defaultOperands (selector : Nat) : Operands :=
  match selector with
  | 0 => .options defaultOptions
  | 1 => .transmit none none
  | _ => .none

/-- The low `n` bits of a number as a bit string, most significant bit first: a table pattern's leftmost bit is the first in
time (R107). -/
def numberBits (n w : Nat) : List Level :=
  (List.range n).map fun i => w.testBit (n - 1 - i)

/-- A frame format of `wd` bytes whose bits are the number `w`: with the discriminator bit in front when `w` has no bit above
it, else without. -/
def tableFrame (plain withDc : Width) (w : Nat) : Option Code :=
  if w < 2 ^ (8 * withDc.bytes) then
    some (.wire .command .lowMeansCommand withDc false (numberBits (8 * withDc.bytes + 1) w))
  else if w < 2 ^ (8 * withDc.bytes + 1) then
    some (.wire .command .lowMeansData withDc false (numberBits (8 * withDc.bytes + 1) w))
  else if w < 2 ^ (8 * plain.bytes) then
    some (.wire .command .disabled plain false (numberBits (8 * plain.bytes) w))
  else none

/-- One reading of a bare table word of `nbits` bits (log 10). -/
def tableCode (nbits w : Nat) : Option Code :=
  match (nbits + 7) / 8 with
  | 1 =>
    if w < 8 then some (.hostOp (BitVec.ofNat 3 w) (defaultOperands w))
    else if w < 256 then some (.wire .command .disabled .w1 false (numberBits 8 w))
    else none
  | 2 => tableFrame .w2 .w1 w
  | 3 => tableFrame .w3 .w2 w
  | 4 => tableFrame .w4 .w3 w
  | 5 => tableFrame .w4 .w4 w
  | _ => none

/-- The instruction the decoder reads from a table word. -/
def decodeTableWord (nbits w : Nat) : Option Instr :=
  match tableCode nbits w with
  | none => none
  | some c =>
    match decode c with
    | .instr i => some i
    | .rejected _ => none

end Sys2Proof
end

