-- ==== Sys2Proof/Machine/Platform.lean ====
section
/-! DEFINITION. The platform's mode table: MODE_DECODE's default, and the choice of a row. -/

namespace Sys2Proof

/-- The classic numbering, `spi_mode = 2*CPOL + CPHA`: the idle level is CPOL, the active edge is rising exactly when
CPOL = CPHA (R97, D2). -/
def classicModes : ModeTable where
  mode0 := { idle := false, edge := .rising }
  mode1 := { idle := false, edge := .falling }
  mode2 := { idle := true,  edge := .falling }
  mode3 := { idle := true,  edge := .rising }

/-- The row of a `spi_mode` (R97, R114). -/
def ModeTable.row (t : ModeTable) (mode : BitVec 2) : ModeRow :=
  if mode = 0#2 then t.mode0
  else if mode = 1#2 then t.mode1
  else if mode = 2#2 then t.mode2
  else t.mode3

end Sys2Proof
end

