-- ==== Sys2Proof/Machine/State.lean ====
section
/-! DEFINITION. The state of one transmitter instance (R20) with the host and the environment beside it, the reasons a step
can stop, and the state after reset (R44). -/

namespace Sys2Proof.Machine

/-- The lifecycle phase (R21). -/
inductive Phase where
  | uninitialized
  | idle
  | transacting
  | released
deriving DecidableEq, Repr

/-- The state of a line's output driver (R35). -/
inductive PinState where
  | unowned
  | input
  | out0
  | out1
  | outX
  | unknown
deriving DecidableEq, Repr

/-- The lines' side of the state: all that a line operation reads or changes (R130), and a delay (R156). -/
structure Bus where
  /-- `pin[l]` (R35). -/
  pin      : Lines PinState
  /-- Ghost: every event so far, oldest first (R12, R37). -/
  trace    : List Event
  /-- Ghost, sticky: whether any line operation of this instance failed (R38). -/
  ioFailed : Bool
  /-- The environment's next answers to line operations, oldest first; past its end the free value `Config.ioOk`
  answers (R14, log 3). -/
  answers  : List Bool
deriving DecidableEq, Repr

/-- The working registers (R40). `none` is the spec's own "no value": their state at reset and outside a TRANSMIT. -/
structure Work where
  v : Option Word
  w : Option Width
  k : Option (BitVec 2)
  s : Option Byte
  n : Option (BitVec 4)
  d : Option (Option Level)
  f : Option Nat
deriving DecidableEq, Repr

/-- No working register holds a value (R40, R44). -/
def Work.empty : Work :=
  { v := none, w := none, k := none, s := none, n := none, d := none, f := none }

/-- The parameter buffer space (R60, R61): the cells (offset, byte) of the buffer of the TRANSMIT in progress, by rising
offset. An unlisted offset has no byte. -/
abbrev Memory := List Host.Cell

/-- A frame of the TRANSMIT in progress that has not been started: the command word, or parameter word number `index`, which
is read from the buffer when its frame is about to be sent (R75, R215). -/
inductive FrameReq where
  | command (v : Word)
  | parameter (index : Nat)
deriving DecidableEq, Repr

/-- The whole state: the tuple of R20, the operands of the operation in progress (R43), and the model's own host side and
platform (logs 1 to 4). -/
structure State where
  phase   : Phase
  cfg     : Option BusConfig
  bind    : Lines (Option LineBinding)
  bus     : Bus
  work    : Work
  mem     : Memory
  todo    : List FrameReq
  pending : List Instr
  results : List Result
  plat    : Platform
deriving DecidableEq, Repr

/-- Why a step stops with a fault. No state that meets the invariant of Safety.lean reaches either. -/
inductive Fault where
  /-- `cfg` has no value where an operation reads it; R44 calls that impossible. Raised by TRANSMIT, TEARDOWN, the frame
  formats and the sequencer. Safe: the model stops. -/
  | configurationAbsent
  /-- A parameter word would be read at an offset at or above the buffer's length, where MemRead is not defined (R61).
  Raised by the sequencer when it starts a parameter frame. Safe: the model stops. -/
  | bufferOffsetAbsent
deriving DecidableEq, Repr

/-- Why a step has no meaning. -/
inductive Refusal where
  /-- An instruction that has no meaning in this model yet; none is left. Safe. -/
  | notModelled (mnemonic : String)
  /-- An operation that the current phase does not admit (R22, R230). Raised by every instruction. Safe (D15). -/
  | notAdmitted (mnemonic : String) (phase : Phase)
  /-- Two lines of the instance bound to one physical pin (R45, R268, D24). Raised by CREATE. Safe. -/
  | aliasedPins
  /-- A frame format that the configuration does not select (R107). Raised by the frame formats. Safe. -/
  | formatNotSelected (mnemonic : String)
  /-- The host issues no operation: the run has ended (R284). Raised by the step. Safe. -/
  | noOperationIssued
deriving DecidableEq, Repr

/-- The result of a procedure of the sequencer: it ended, or a line operation in it raised `IoError` and it stopped there
(R11). -/
inductive Flow (σ : Type) where
  | ok (s : σ)
  | ioError (s : σ)
deriving DecidableEq, Repr

/-- The rows of the table of R256: which operation raised which error. -/
inductive ErrorRow where
  /-- CREATE, `InvalidArgument`. -/
  | createInvalid
  /-- CREATE, `IoError`. -/
  | createIo
  /-- TRANSMIT, `IoError`. -/
  | transmitIo
  /-- TEARDOWN, `IoError`. -/
  | teardownIo
  /-- RX_PARAM, TX_COLOR or REGISTER_CALLBACKS, `NotSupported`. -/
  | unsupported
deriving DecidableEq, Repr

/-- No line is bound (R44). -/
def unbound : Lines (Option LineBinding) :=
  { cs := none, scl := none, sda := none }

/-- The state after reset (R44, R280). The host has issued nothing and has been answered nothing (logs 1, 2), the oracle's
answers and the clock ceiling are free values (logs 3, 4), the mode table is the spec's default (R97). -/
def State.reset : State where
  phase   := .uninitialized
  cfg     := none
  bind    := unbound
  bus     := { pin := { cs := .unowned, scl := .unowned, sda := .unowned }, trace := [], ioFailed := false, answers := [] }
  work    := Work.empty
  mem     := []
  todo    := []
  pending := []
  results := []
  plat    := { clkMaxHz := Config.clkMaxHzPred + 1, modeDecode := classicModes }

end Sys2Proof.Machine
end

