-- ==== Sys2Proof/Machine/Flags.lean ====
section
/-! DEFINITION. The transmitter has no flags (R41). This file holds what stands in their place: the levels and choices
derived from `cfg`, the delay mode, and the states a line's driver moves to. -/

namespace Sys2Proof.Machine

/-- `mode(H)` (R155). -/
def delayMode (h : Nat) : DelayMode :=
  if 1000 ≤ h then .sleep else .busy

/-- `Out(v)` (R35). -/
def PinState.out (v : Level) : PinState :=
  if v then .out1 else .out0

/-- The line is an output, whatever it drives (R133). -/
def PinState.isOutput : PinState → Bool
  | .unowned => false
  | .input   => false
  | .out0    => true
  | .out1    => true
  | .outX    => true
  | .unknown => false

end Sys2Proof.Machine

namespace Sys2Proof

/-- `P`, the pre-edge level (R17, R31). -/
def BusConfig.preEdge (c : BusConfig) : Level :=
  match c.activeEdge with
  | .rising  => false
  | .falling => true

/-- `Q = ~P`, the post-edge level (R17, R31). -/
def BusConfig.postEdge (c : BusConfig) : Level := !c.preEdge

/-- The width of a frame of a kind: `cfg.cmd_bytes` or `cfg.param_bytes` (R192). -/
def BusConfig.bytes (c : BusConfig) : FrameKind → Width
  | .command   => c.cmdBytes
  | .parameter => c.paramBytes

/-- The discriminator of a frame of a kind: `cfg.cmd_dc` or `cfg.param_dc` (R28). -/
def BusConfig.dc (c : BusConfig) (k : FrameKind) : Option Level := dcOf k c.dcPolicy

/-- `frame_bits(k, v)` under a configuration (R100). -/
def BusConfig.frameBits (c : BusConfig) (k : FrameKind) (v : Word) : List Level :=
  Sys2Proof.frameBits k c.dcPolicy (c.bytes k) c.lsbFirst v

end Sys2Proof
end

