-- ==== Sys2Proof/Machine/Ops.lean ====
section
/-! DEFINITION. The named operations over the lines, the trace, the buffer space and the registers, and raising an error
(R256). -/

namespace Sys2Proof.Machine

/-! ## Sequencing -/

/-- Run the next procedure unless the one before raised `IoError`, which passes to the caller (R11). -/
def Flow.andThen {σ : Type} (f : Flow σ) (g : σ → Flow σ) : Flow σ :=
  match f with
  | .ok s      => g s
  | .ioError s => .ioError s

/-- What a procedure left, whichever way it ended. -/
def Flow.final {σ : Type} : Flow σ → σ
  | .ok s      => s
  | .ioError s => s

/-- Run a procedure that touches the lines only. -/
def onBus (f : Bus → Flow Bus) (s : State) : Flow State :=
  match f s.bus with
  | .ok b      => .ok { s with bus := b }
  | .ioError b => .ioError { s with bus := b }

/-! ## Line operations (40_line_ops.md) -/

/-- The line an operation is on. -/
def lineOf : LineOp → Line
  | .cfgOut l => l
  | .set l _  => l
  | .rel l    => l

/-- The event an operation leaves (R131, R133, R135). -/
def eventOf (ok : Bool) : LineOp → Event
  | .cfgOut l => .cfgOut l ok
  | .set l v  => .set l v ok
  | .rel l    => .rel l ok

/-- Where an operation moves the driver of its line (R36, R131, R133, R135). -/
def pinAfter (op : LineOp) (ok : Bool) (p : PinState) : PinState :=
  match op, ok with
  | .cfgOut _, true  => .outX
  | .cfgOut _, false => .unknown
  | .set _ v,  true  => PinState.out v
  | .set _ _,  false => if p.isOutput then .outX else .unknown
  | .rel _,    true  => .input
  | .rel _,    false => .unknown

/-- The oracle IO_OK: the environment's next answer, or the free value past the listed ones (R14, log 3). -/
def askOracle (b : Bus) (op : LineOp) : Bool :=
  match b.answers with
  | a :: _ => a
  | []     => Config.ioOk b.trace op

/-- The lines after an operation whose oracle answer is `ok`: one event, one line, and the sticky bit on a failure
(R130, R38). The answer is used up. -/
def afterLineOp (op : LineOp) (ok : Bool) (b : Bus) : Bus where
  pin      := b.pin.set (lineOf op) (pinAfter op ok (b.pin.get (lineOf op)))
  trace    := b.trace ++ [eventOf ok op]
  ioFailed := b.ioFailed || !ok
  answers  := b.answers.tail

/-- One line operation: it asks the oracle once, and raises `IoError` when the answer is "failed" (R130, R252). It is
performed even where it changes no level (R134). -/
def lineOp (op : LineOp) (b : Bus) : Flow Bus :=
  let ok := askOracle b op
  let b' := afterLineOp op ok b
  if ok then .ok b' else .ioError b'

/-- LINE_CFG_OUT (R131). -/
def lineCfgOut (l : Line) (b : Bus) : Flow Bus := lineOp (.cfgOut l) b

/-- LINE_SET (R133). -/
def lineSet (l : Line) (v : Level) (b : Bus) : Flow Bus := lineOp (.set l v) b

/-- LINE_RELEASE (R135). -/
def lineRelease (l : Line) (b : Bus) : Flow Bus := lineOp (.rel l) b

/-! ## Delays (41_timing.md) -/

/-- CALC_HALF_PERIOD (R152): floor division (D5). -/
def calcHalfPeriod (clockHz : Nat) : Nat := 500000 / clockHz

/-- The event of a delay of `h` microseconds (R156). -/
def delayEvent (h : Nat) : Event := .dly h (delayMode h)

/-- DELAY (R156): one event and nothing else. -/
def delay (c : BusConfig) (b : Bus) : Bus :=
  { b with trace := b.trace ++ [delayEvent c.halfPeriodUs] }

/-! ## The buffer space (R61) -/

/-- The buffer space that holds these bytes, from offset 0 up. -/
def loadBuffer (bytes : List Byte) : Memory :=
  bytes.zipIdx.map fun p => (p.2, p.1)

/-- `MemRead(a, 1)`: the byte at an offset, none where the buffer has no byte (R61). -/
def memRead (m : Memory) (a : Nat) : Option Byte := m.lookup a

/-- The canonical form of the buffer space: the offsets are 0, 1, ..., L-1 in this order, so they rise strictly and equal
buffers are equal lists (R61). -/
def Memory.wf (m : Memory) : Bool :=
  decide (m.map Prod.fst = List.range m.length)

/-! ## Working registers (R40) -/

/-- `V` and `W` of a frame (R192). -/
def State.setWord (s : State) (v : Word) (w : Width) : State :=
  { s with work := { s.work with v := some v, w := some w } }

/-- `K` of a byte (R192). -/
def State.setK (s : State) (k : BitVec 2) : State :=
  { s with work := { s.work with k := some k } }

/-- `D` and `S` of a byte (R172). -/
def State.setByte (s : State) (d : Option Level) (b : Byte) : State :=
  { s with work := { s.work with d := some d, s := some b } }

/-- `N` of a bit (R40, log 7). -/
def State.setN (s : State) (n : BitVec 4) : State :=
  { s with work := { s.work with n := some n } }

/-- `S` after a shift (R172). -/
def State.setS (s : State) (b : Byte) : State :=
  { s with work := { s.work with s := some b } }

/-- `F` of a parameter frame (R215). -/
def State.setF (s : State) (f : Nat) : State :=
  { s with work := { s.work with f := some f } }

/-! ## Results and errors (60_exceptions.md) -/

/-- Hand a result to the host (R41: it is kept nowhere else; log 2). -/
def reply (r : Result) (s : State) : State :=
  { s with results := s.results ++ [r] }

/-- `cfg` and every `bind[l]` hold no value (R211, R221). -/
def dropInstance (s : State) : State :=
  { s with cfg := none, bind := unbound }

/-- The end of a TRANSMIT, whatever its result: `phase` is `Idle`, no working register and no operand survives
(R40, R60, R215). -/
def endTransmit (s : State) : State :=
  { s with phase := .idle, work := Work.empty, mem := [], todo := [] }

/-- Raising an error in a host operation: the state changes of the table of R256 that come with it (the lines and
`io_failed` were changed by the failing line operation itself), then the result goes to the host. Nothing is saved and
control goes nowhere inside the block; there is no return from an error (R260). The first row is the error of CREATE's
validation, which changes nothing else. -/
def raise (row : ErrorRow) (s : State) : State :=
  match row with
  | .createInvalid => reply .invalidArgument s
  | .createIo      => reply .ioError (dropInstance { s with phase := .uninitialized })
  | .transmitIo    => reply .ioError (endTransmit s)
  | .teardownIo    => reply .ioError (dropInstance { s with phase := .released })
  | .unsupported   => reply .notSupported s

end Sys2Proof.Machine
end

