-- ==== Sys2Proof/Machine/BitEncoder.lean ====
section
/-! DEFINITION. The Bit Encoder (42_bit_encoder.md): SEND_BIT and SEND_BYTE. -/

namespace Sys2Proof.Machine

/-- SEND_BIT (R171): data first, clock to the pre-edge level, half a period, the active edge, half a period. -/
def sendBit (c : BusConfig) (x : Level) (b : Bus) : Flow Bus :=
  (lineSet .sda x b).andThen fun b =>
  (lineSet .scl c.preEdge b).andThen fun b =>
  (lineSet .scl c.postEdge (delay c b)).andThen fun b =>
  .ok (delay c b)

/-- The bit the shift register gives next: `S[0]` or `S[7]` (R172). -/
def shiftBit (lsbFirst : Bool) (s : Byte) : Level :=
  if lsbFirst then s.getLsbD 0 else s.getLsbD 7

/-- The shift register after that bit: `S div 2` or `(S * 2) mod 256` (R172). -/
def shiftByte (lsbFirst : Bool) (s : Byte) : Byte :=
  if lsbFirst then s >>> 1 else s <<< 1

/-- The bit loop of SEND_BYTE (R172): `n` bits are still to be shifted out of `b`; `pos` is the position of the next one
among the 8 or 9 bits of the byte (R40, log 7). -/
def sendShifted (c : BusConfig) (b : Byte) (pos : Nat) : Nat → State → Flow State
  | 0,     s => .ok s
  | n + 1, s =>
    (onBus (sendBit c (shiftBit c.lsbFirst b)) (s.setN (BitVec.ofNat 4 pos))).andThen fun s =>
    sendShifted c (shiftByte c.lsbFirst b) (pos + 1) n (s.setS (shiftByte c.lsbFirst b))

/-- SEND_BYTE (R172): the discriminator, if any, at position 0 and not taken from `S`; then the 8 bits of the byte. -/
def sendByte (c : BusConfig) (d : Option Level) (b : Byte) (s : State) : Flow State :=
  let s := s.setByte d b
  match d with
  | none   => sendShifted c b 0 8 s
  | some x => (onBus (sendBit c x) (s.setN 0#4)).andThen (sendShifted c b 1 8)

end Sys2Proof.Machine
end

