-- ==== Sys2Proof/Machine/Frames.lean ====
section
/-! DEFINITION. The Frame Orchestrator (43_frame.md): SEND_FRAME, and the meaning of the 24 frame formats. -/

namespace Sys2Proof.Machine

/-- The byte loop of SEND_FRAME (R192 steps 3 and 4): the low `n` bytes of `v` are still to be sent, most significant first,
so `K = W - n`; the discriminator `d` goes with the byte of `K = 0` only (R194). -/
def sendBytes (c : BusConfig) (d : Option Level) (w : Width) (v : Word) : Nat → State → Flow State
  | 0,     s => .ok s
  | n + 1, s =>
    let k := w.bytes - (n + 1)
    (sendByte c (if k = 0 then d else none) (byteOf v n) (s.setK (BitVec.ofNat 2 k))).andThen
      (sendBytes c d w v n)

/-- Steps 1 and 2 of SEND_FRAME: assert `CS`, wait, set the clock to the pre-edge level (R192, R195, R196). -/
def openFrame (c : BusConfig) (b : Bus) : Flow Bus :=
  (lineSet .cs c.csActive b).andThen fun b =>
  lineSet .scl c.preEdge (delay c b)

/-- Steps 5 and 6 of SEND_FRAME: clock then data to idle, wait, deassert `CS`, wait (R192, R196, R197). -/
def closeFrame (c : BusConfig) (b : Bus) : Flow Bus :=
  (lineSet .scl c.sclIdle b).andThen fun b =>
  (lineSet .sda c.sdaIdle b).andThen fun b =>
  (lineSet .cs (!c.csActive) (delay c b)).andThen fun b =>
  .ok (delay c b)

/-- SEND_FRAME (R192). -/
def sendFrame (c : BusConfig) (k : FrameKind) (v : Word) (s : State) : Flow State :=
  let w := c.bytes k
  let v := truncate w v
  (onBus (openFrame c) (s.setWord v w)).andThen fun s =>
  (sendBytes c (c.dc k) w v w.bytes s).andThen
  (onBus (closeFrame c))

/-- The state after a frame: as SEND_FRAME left it, or the end of the TRANSMIT in progress with `IoError` (R199, R219). -/
def afterFrame : Flow State → State
  | .ok s      => s
  | .ioError s => raise .transmitIo s

/-- What the 24 frame formats share. A frame is a step of a TRANSMIT in progress (R190, R200), in the format that `cfg` and
the frame's kind select (R107); an `IoError` inside it is the TRANSMIT's (R199, R219). -/
def runFrame (mnemonic : String) (k : FrameKind) (p : DcPolicy) (w : Width) (v : Word) (s : State) :
    Host.Outcome State Fault Refusal :=
  if s.phase ≠ .transacting then .refused (.notAdmitted mnemonic s.phase)
  else
    match s.cfg with
    | none => .fault .configurationAbsent
    | some c =>
      if c.dcPolicy = p ∧ c.bytes k = w then .next (afterFrame (sendFrame c k v s))
      else .refused (.formatNotSelected mnemonic)

/-- FRAME.C.N.W1 (R107, R192). -/
def execFrameCNW1 (v : Word) (s : State) : Host.Outcome State Fault Refusal :=
  runFrame "FRAME.C.N.W1" .command .disabled .w1 v s

/-- FRAME.C.N.W2 (R107, R192). -/
def execFrameCNW2 (v : Word) (s : State) : Host.Outcome State Fault Refusal :=
  runFrame "FRAME.C.N.W2" .command .disabled .w2 v s

/-- FRAME.C.N.W3 (R107, R192). -/
def execFrameCNW3 (v : Word) (s : State) : Host.Outcome State Fault Refusal :=
  runFrame "FRAME.C.N.W3" .command .disabled .w3 v s

/-- FRAME.C.N.W4 (R107, R192). -/
def execFrameCNW4 (v : Word) (s : State) : Host.Outcome State Fault Refusal :=
  runFrame "FRAME.C.N.W4" .command .disabled .w4 v s

/-- FRAME.C.LC.W1 (R107, R192). -/
def execFrameCLCW1 (v : Word) (s : State) : Host.Outcome State Fault Refusal :=
  runFrame "FRAME.C.LC.W1" .command .lowMeansCommand .w1 v s

/-- FRAME.C.LC.W2 (R107, R192). -/
def execFrameCLCW2 (v : Word) (s : State) : Host.Outcome State Fault Refusal :=
  runFrame "FRAME.C.LC.W2" .command .lowMeansCommand .w2 v s

/-- FRAME.C.LC.W3 (R107, R192). -/
def execFrameCLCW3 (v : Word) (s : State) : Host.Outcome State Fault Refusal :=
  runFrame "FRAME.C.LC.W3" .command .lowMeansCommand .w3 v s

/-- FRAME.C.LC.W4 (R107, R192). -/
def execFrameCLCW4 (v : Word) (s : State) : Host.Outcome State Fault Refusal :=
  runFrame "FRAME.C.LC.W4" .command .lowMeansCommand .w4 v s

/-- FRAME.C.LD.W1 (R107, R192). -/
def execFrameCLDW1 (v : Word) (s : State) : Host.Outcome State Fault Refusal :=
  runFrame "FRAME.C.LD.W1" .command .lowMeansData .w1 v s

/-- FRAME.C.LD.W2 (R107, R192). -/
def execFrameCLDW2 (v : Word) (s : State) : Host.Outcome State Fault Refusal :=
  runFrame "FRAME.C.LD.W2" .command .lowMeansData .w2 v s

/-- FRAME.C.LD.W3 (R107, R192). -/
def execFrameCLDW3 (v : Word) (s : State) : Host.Outcome State Fault Refusal :=
  runFrame "FRAME.C.LD.W3" .command .lowMeansData .w3 v s

/-- FRAME.C.LD.W4 (R107, R192). -/
def execFrameCLDW4 (v : Word) (s : State) : Host.Outcome State Fault Refusal :=
  runFrame "FRAME.C.LD.W4" .command .lowMeansData .w4 v s

/-- FRAME.P.N.W1 (R107, R192). -/
def execFramePNW1 (v : Word) (s : State) : Host.Outcome State Fault Refusal :=
  runFrame "FRAME.P.N.W1" .parameter .disabled .w1 v s

/-- FRAME.P.N.W2 (R107, R192). -/
def execFramePNW2 (v : Word) (s : State) : Host.Outcome State Fault Refusal :=
  runFrame "FRAME.P.N.W2" .parameter .disabled .w2 v s

/-- FRAME.P.N.W3 (R107, R192). -/
def execFramePNW3 (v : Word) (s : State) : Host.Outcome State Fault Refusal :=
  runFrame "FRAME.P.N.W3" .parameter .disabled .w3 v s

/-- FRAME.P.N.W4 (R107, R192). -/
def execFramePNW4 (v : Word) (s : State) : Host.Outcome State Fault Refusal :=
  runFrame "FRAME.P.N.W4" .parameter .disabled .w4 v s

/-- FRAME.P.LC.W1 (R107, R192). -/
def execFramePLCW1 (v : Word) (s : State) : Host.Outcome State Fault Refusal :=
  runFrame "FRAME.P.LC.W1" .parameter .lowMeansCommand .w1 v s

/-- FRAME.P.LC.W2 (R107, R192). -/
def execFramePLCW2 (v : Word) (s : State) : Host.Outcome State Fault Refusal :=
  runFrame "FRAME.P.LC.W2" .parameter .lowMeansCommand .w2 v s

/-- FRAME.P.LC.W3 (R107, R192). -/
def execFramePLCW3 (v : Word) (s : State) : Host.Outcome State Fault Refusal :=
  runFrame "FRAME.P.LC.W3" .parameter .lowMeansCommand .w3 v s

/-- FRAME.P.LC.W4 (R107, R192). -/
def execFramePLCW4 (v : Word) (s : State) : Host.Outcome State Fault Refusal :=
  runFrame "FRAME.P.LC.W4" .parameter .lowMeansCommand .w4 v s

/-- FRAME.P.LD.W1 (R107, R192). -/
def execFramePLDW1 (v : Word) (s : State) : Host.Outcome State Fault Refusal :=
  runFrame "FRAME.P.LD.W1" .parameter .lowMeansData .w1 v s

/-- FRAME.P.LD.W2 (R107, R192). -/
def execFramePLDW2 (v : Word) (s : State) : Host.Outcome State Fault Refusal :=
  runFrame "FRAME.P.LD.W2" .parameter .lowMeansData .w2 v s

/-- FRAME.P.LD.W3 (R107, R192). -/
def execFramePLDW3 (v : Word) (s : State) : Host.Outcome State Fault Refusal :=
  runFrame "FRAME.P.LD.W3" .parameter .lowMeansData .w3 v s

/-- FRAME.P.LD.W4 (R107, R192). -/
def execFramePLDW4 (v : Word) (s : State) : Host.Outcome State Fault Refusal :=
  runFrame "FRAME.P.LD.W4" .parameter .lowMeansData .w4 v s

end Sys2Proof.Machine
end

