-- ==== Sys2Proof/Machine/Operands.lean ====
section
/-! DEFINITION. The operands of the host operations: the construction options decoded into `cfg` and the bindings
(30_encoding.md section 2), the command operand, the words of the parameter buffer, and the frames a TRANSMIT sends. -/

namespace Sys2Proof.Machine

/-! ## Construction options -/

/-- A width option: 1, 2, 3 or 4, anything else is invalid (R93, R94). -/
def widthOption : Nat → Option Width
  | 1 => some .w1
  | 2 => some .w2
  | 3 => some .w3
  | 4 => some .w4
  | _ => none

/-- `cfg.clock_hz`: the ceiling for an absent or zero option, the option when it is at most the ceiling, else invalid; it is
not clamped (R92, C3). -/
def clockOption (clkMaxHz : Nat) : Option Nat → Option Nat
  | none   => some clkMaxHz
  | some f => if f = 0 then some clkMaxHz else if f ≤ clkMaxHz then some f else none

/-- The binding of a line option; an expander without a handle has none (R99). -/
def lineOption : LineOption → Option LineBinding
  | .native id              => some (.native id)
  | .expander (some h) id   => some (.expander h id)
  | .expander none _        => none

/-- The discriminator policy (R95). -/
def policyOption (useBit lowMeansData : Bool) : DcPolicy :=
  if useBit then (if lowMeansData then .lowMeansData else .lowMeansCommand) else .disabled

/-- What a valid record of options decodes to. -/
structure Decoding where
  cfg : BusConfig
  cs  : LineBinding
  scl : LineBinding
  sda : LineBinding
deriving DecidableEq, Repr

/-- The options decoded into `cfg` and the bindings (R92 to R99), none when they are not valid (R212). -/
def decodeOptions (p : Platform) (o : Options) : Option Decoding :=
  match widthOption o.commandByteWidth, widthOption o.parameterByteWidth, clockOption p.clkMaxHz o.clockHz,
      lineOption o.csLine, lineOption o.sclLine, lineOption o.sdaLine with
  | some cw, some pw, some hz, some cs, some scl, some sda =>
    some
      { cfg :=
          { clockHz      := hz
            halfPeriodUs := calcHalfPeriod hz
            cmdBytes     := cw
            paramBytes   := pw
            lsbFirst     := o.lsbFirst
            dcPolicy     := policyOption o.useDiscriminatorBit o.discriminatorLowMeansData
            csActive     := o.csActiveHigh
            sclIdle      := (p.modeDecode.row o.spiMode).idle
            sdaIdle      := (p.modeDecode.row o.spiMode).idle
            activeEdge   := (p.modeDecode.row o.spiMode).edge
            keepCs       := o.keepCsAssertedOnTeardown }
        cs := cs, scl := scl, sda := sda }
  | _, _, _, _, _, _ => none

/-- Two of the three lines are bound to one physical pin (R45, D24; log 11). -/
def pinsAliased (d : Decoding) : Bool :=
  d.cs = d.scl || d.cs = d.sda || d.scl = d.sda

/-! ## The command operand and the buffer -/

/-- The command word to send: none when the operand is absent or negative as a signed number (R216). -/
def commandWord (cmd : Option Word) : Option Word :=
  match cmd with
  | none   => none
  | some c => if 0 ≤ c.toInt then some c else none

/-- The bytes of the buffer operand; an absent buffer is an empty one (R61, D25). -/
def bufferBytes (params : Option (List Byte)) : List Byte :=
  params.getD []

/-- The little-endian value of the `n` bytes from offset `a` on, none where the buffer has no byte (R64). -/
def readWord (m : Memory) (a : Nat) : Nat → Option Nat
  | 0     => some 0
  | n + 1 =>
    match memRead m a, readWord m (a + 1) n with
    | some b, some rest => some (b.toNat + 256 * rest)
    | _, _ => none

/-- The word of a frame that is about to start: the command's low bytes (R105), or parameter word `index` read from the
buffer (R64, R75, R217). -/
def frameWord (c : BusConfig) (m : Memory) : FrameReq → Option Word
  | .command v       => some (truncate c.cmdBytes v)
  | .parameter index =>
    (readWord m (index * c.paramBytes.bytes) c.paramBytes.bytes).map fun x => truncate c.paramBytes (BitVec.ofNat 32 x)

/-- The kind of a frame that is about to start. -/
def frameKind : FrameReq → FrameKind
  | .command _   => .command
  | .parameter _ => .parameter

/-- `F` is set for a parameter frame and untouched by the command frame (R40, R215). -/
def State.setIndex (s : State) : FrameReq → State
  | .command _       => s
  | .parameter index => s.setF index

/-- The frames of a TRANSMIT: the command frame, if any, then `L div Wp` parameter frames in rising order
(R215, R217, R218). -/
def planFrames (c : BusConfig) (cmd : Option Word) (length : Nat) : List FrameReq :=
  (commandWord cmd).toList.map FrameReq.command ++
    (List.range (length / c.paramBytes.bytes)).map FrameReq.parameter

end Sys2Proof.Machine
end

