-- ==== Sys2Proof/Machine/HostOps.lean ====
section
/-! DEFINITION. The Public Driver Interface (44_host_ops.md): the six host operations. -/

namespace Sys2Proof.Machine

/-! ## CREATE -/

/-- `Unwind(done)`: release the lines in the given order, which is the reverse of the order in which they were configured; a
failing release is recorded and ignored (R213). -/
def unwind : List Line → Bus → Bus
  | [],      b => b
  | l :: ls, b => unwind ls (lineRelease l b).final

/-- Step 3 of CREATE: configure the lines in order; `done` are those already configured, latest first. A failure unwinds
them (R211, R213). -/
def configureLines : List Line → List Line → Bus → Flow Bus
  | [],      _,    b => .ok b
  | l :: ls, done, b =>
    match lineCfgOut l b with
    | .ok b      => configureLines ls (l :: done) b
    | .ioError b => .ioError (unwind done b)

/-- Step 4 of CREATE: drive the rest levels; a failure unwinds all three lines (R211, R213). -/
def driveRest (c : BusConfig) (b : Bus) : Flow Bus :=
  match (lineSet .cs (!c.csActive) b).andThen fun b =>
        (lineSet .scl c.sclIdle b).andThen fun b =>
        lineSet .sda c.sdaIdle b with
  | .ok b      => .ok b
  | .ioError b => .ioError (unwind [.sda, .scl, .cs] b)

/-- `cfg` and `bind` take the decoded options (R211 step 2). -/
def latchOptions (d : Decoding) (s : State) : State :=
  { s with cfg := some d.cfg, bind := { cs := some d.cs, scl := some d.scl, sda := some d.sda } }

/-- CREATE (R211 to R214). Validation comes before any effect on a line (R212); a record that binds two lines to one pin is
refused (R45, D24). -/
def execCreate (opts : Options) (s : State) : Host.Outcome State Fault Refusal :=
  if s.phase ≠ .uninitialized then .refused (.notAdmitted "CREATE" s.phase)
  else
    match decodeOptions s.plat opts with
    | none => .next (raise .createInvalid s)
    | some d =>
      if pinsAliased d then .refused .aliasedPins
      else .next <|
        match onBus (fun b => (configureLines [.cs, .scl, .sda] [] b).andThen (driveRest d.cfg)) (latchOptions d s) with
        | .ok s      => reply .ok { s with phase := .idle }
        | .ioError s => raise .createIo s

/-! ## TRANSMIT -/

/-- The start of a TRANSMIT: the phase, the buffer in the buffer space, the frames to send (R22, R215). -/
def beginTransmit (c : BusConfig) (cmd : Option Word) (params : Option (List Byte)) (s : State) : State :=
  { s with
    phase := .transacting
    mem   := loadBuffer (bufferBytes params)
    todo  := planFrames c cmd (bufferBytes params).length }

/-- The frame loop of TRANSMIT (R215): the frames of the list are still to be sent; the first `IoError` ends it (R219). -/
def sendFrames (c : BusConfig) : List FrameReq → State → Host.Outcome State Fault Refusal
  | [],        s => .next (reply .ok (endTransmit s))
  | r :: rest, s =>
    match frameWord c s.mem r with
    | none   => .fault .bufferOffsetAbsent
    | some v =>
      match sendFrame c (frameKind r) v (State.setIndex { s with todo := rest } r) with
      | .ok s      => sendFrames c rest s
      | .ioError s => .next (raise .transmitIo s)

/-- TRANSMIT (R215 to R220). -/
def execTransmit (cmd : Option Word) (params : Option (List Byte)) (s : State) : Host.Outcome State Fault Refusal :=
  if s.phase ≠ .idle then .refused (.notAdmitted "TRANSMIT" s.phase)
  else
    match s.cfg with
    | none   => .fault .configurationAbsent
    | some c => sendFrames c (planFrames c cmd (bufferBytes params).length) (beginTransmit c cmd params s)

/-! ## TEARDOWN -/

/-- The releases of TEARDOWN in order; the first failure ends them (R221, R223). `CS` is not touched when `cfg.keep_cs` is
set (R222). -/
def releaseLines (keepCs : Bool) (b : Bus) : Flow Bus :=
  (lineRelease .scl b).andThen fun b =>
  (lineRelease .sda b).andThen fun b =>
  if keepCs then .ok b else lineRelease .cs b

/-- TEARDOWN (R221 to R224). -/
def execTeardown (s : State) : Host.Outcome State Fault Refusal :=
  if s.phase ≠ .idle then .refused (.notAdmitted "TEARDOWN" s.phase)
  else
    match s.cfg with
    | none   => .fault .configurationAbsent
    | some c => .next <|
      match onBus (releaseLines c.keepCs) s with
      | .ok s      => reply .ok (dropInstance { s with phase := .released })
      | .ioError s => raise .teardownIo s

/-! ## The unsupported operations -/

/-- What the three share: in `Idle` the result is `NotSupported`, at once and with no other effect (R253). -/
def notSupported (mnemonic : String) (s : State) : Host.Outcome State Fault Refusal :=
  if s.phase ≠ .idle then .refused (.notAdmitted mnemonic s.phase)
  else .next (raise .unsupported s)

/-- RX_PARAM (R226). -/
def execRxParam (s : State) : Host.Outcome State Fault Refusal := notSupported "RX_PARAM" s

/-- TX_COLOR (R227). -/
def execTxColor (s : State) : Host.Outcome State Fault Refusal := notSupported "TX_COLOR" s

/-- REGISTER_CALLBACKS (R228). -/
def execRegisterCallbacks (s : State) : Host.Outcome State Fault Refusal := notSupported "REGISTER_CALLBACKS" s

end Sys2Proof.Machine
end

