-- ==== Sys2Proof/Machine/Dispatch.lean ====
section
/-! DEFINITION. The dispatch: one arm per instruction, each one direct call of its meaning. -/

namespace Sys2Proof.Machine

def exec (i : Instr) (s : State) : Host.Outcome State Fault Refusal :=
  match i with
  | .create opts => Sys2Proof.Machine.execCreate opts s
  | .transmit cmd params => Sys2Proof.Machine.execTransmit cmd params s
  | .teardown => Sys2Proof.Machine.execTeardown s
  | .rxParam => Sys2Proof.Machine.execRxParam s
  | .txColor => Sys2Proof.Machine.execTxColor s
  | .registerCallbacks => Sys2Proof.Machine.execRegisterCallbacks s
  | .frameCNW1 v => Sys2Proof.Machine.execFrameCNW1 v s
  | .frameCNW2 v => Sys2Proof.Machine.execFrameCNW2 v s
  | .frameCNW3 v => Sys2Proof.Machine.execFrameCNW3 v s
  | .frameCNW4 v => Sys2Proof.Machine.execFrameCNW4 v s
  | .frameCLCW1 v => Sys2Proof.Machine.execFrameCLCW1 v s
  | .frameCLCW2 v => Sys2Proof.Machine.execFrameCLCW2 v s
  | .frameCLCW3 v => Sys2Proof.Machine.execFrameCLCW3 v s
  | .frameCLCW4 v => Sys2Proof.Machine.execFrameCLCW4 v s
  | .frameCLDW1 v => Sys2Proof.Machine.execFrameCLDW1 v s
  | .frameCLDW2 v => Sys2Proof.Machine.execFrameCLDW2 v s
  | .frameCLDW3 v => Sys2Proof.Machine.execFrameCLDW3 v s
  | .frameCLDW4 v => Sys2Proof.Machine.execFrameCLDW4 v s
  | .framePNW1 v => Sys2Proof.Machine.execFramePNW1 v s
  | .framePNW2 v => Sys2Proof.Machine.execFramePNW2 v s
  | .framePNW3 v => Sys2Proof.Machine.execFramePNW3 v s
  | .framePNW4 v => Sys2Proof.Machine.execFramePNW4 v s
  | .framePLCW1 v => Sys2Proof.Machine.execFramePLCW1 v s
  | .framePLCW2 v => Sys2Proof.Machine.execFramePLCW2 v s
  | .framePLCW3 v => Sys2Proof.Machine.execFramePLCW3 v s
  | .framePLCW4 v => Sys2Proof.Machine.execFramePLCW4 v s
  | .framePLDW1 v => Sys2Proof.Machine.execFramePLDW1 v s
  | .framePLDW2 v => Sys2Proof.Machine.execFramePLDW2 v s
  | .framePLDW3 v => Sys2Proof.Machine.execFramePLDW3 v s
  | .framePLDW4 v => Sys2Proof.Machine.execFramePLDW4 v s

end Sys2Proof.Machine
end

