-- ==== Sys2Proof/Machine/Fetch.lean ====
section
/-! DEFINITION. What a step runs next (44_host_ops.md R231), and the placing of an instruction so that the next step runs it. -/

namespace Sys2Proof.Machine

/-- What the machine does next. -/
inductive Next where
  /-- Run this instruction on this state: the host's oldest operation, or the next frame of the TRANSMIT in progress. -/
  | run (i : Instr) (s : State)
  /-- The TRANSMIT in progress has no frame left: it returns `Ok` (R215). -/
  | finish
  /-- Reading the next frame's word, or `cfg` itself, is not possible. -/
  | stuck (f : Fault)
  /-- The host issues no operation (R284). -/
  | ended
deriving DecidableEq, Repr

/-- The frame instruction of the next frame: the format `cfg` and the kind select (R107), the word of the request; the frame
is no longer to be started, and `F` is its index (R215). -/
def fetchFrame (c : BusConfig) (r : FrameReq) (rest : List FrameReq) (s : State) : Next :=
  match frameWord c s.mem r with
  | none   => .stuck .bufferOffsetAbsent
  | some v => .run (frameInstr (frameKind r) c.dcPolicy (c.bytes (frameKind r)) v) (State.setIndex { s with todo := rest } r)

/-- What a step runs: inside a TRANSMIT its next frame, and nothing the host has waiting (R13, R74); else the host's oldest
operation. -/
def fetch (s : State) : Next :=
  if s.phase = .transacting then
    match s.todo, s.cfg with
    | [],        _      => .finish
    | _ :: _,    none   => .stuck .configurationAbsent
    | r :: rest, some c => fetchFrame c r rest s
  else
    match s.pending with
    | []        => .ended
    | i :: rest => .run i { s with pending := rest }

/-! ## Placing an instruction (log 12) -/

/-- The configuration an instance is given where the placing needs one: the default options on this platform (log 12). -/
def placedConfig (p : Platform) : BusConfig where
  clockHz      := p.clkMaxHz
  halfPeriodUs := calcHalfPeriod p.clkMaxHz
  cmdBytes     := .w1
  paramBytes   := .w1
  lsbFirst     := false
  dcPolicy     := .disabled
  csActive     := false
  sclIdle      := p.modeDecode.mode0.idle
  sdaIdle      := p.modeDecode.mode0.idle
  activeEdge   := p.modeDecode.mode0.edge
  keepCs       := false

/-- The host issues this operation next, in a phase that admits it. -/
def placeHostOp (phase : Phase) (cfg : Option BusConfig) (i : Instr) (s : State) : State :=
  { s with phase := phase, cfg := cfg, pending := i :: s.pending }

/-- The bytes of a word from the least significant up: the buffer that holds it (R64). -/
def wordBytes (w : Width) (v : Word) : List Byte :=
  (List.range w.bytes).map (byteOf v)

/-- A TRANSMIT is in progress in a configuration that selects this format, and the frame is the next one to be started. -/
def placeFrame (k : FrameKind) (p : DcPolicy) (w : Width) (v : Word) (s : State) : State :=
  let c := s.cfg.getD (placedConfig s.plat)
  match k with
  | .command =>
    { s with
      phase := .transacting
      cfg   := some { c with dcPolicy := p, cmdBytes := w }
      todo  := .command v :: s.todo }
  | .parameter =>
    { s with
      phase := .transacting
      cfg   := some { c with dcPolicy := p, paramBytes := w }
      mem   := loadBuffer (wordBytes w v)
      todo  := .parameter 0 :: s.todo }

/-- The state in which the next step runs exactly this instruction. -/
def place (i : Instr) (s : State) : State :=
  match i with
  | .create _ => placeHostOp .uninitialized none i s
  | .transmit _ _ => placeHostOp .idle (some (s.cfg.getD (placedConfig s.plat))) i s
  | .teardown => placeHostOp .idle (some (s.cfg.getD (placedConfig s.plat))) i s
  | .rxParam => placeHostOp .idle (some (s.cfg.getD (placedConfig s.plat))) i s
  | .txColor => placeHostOp .idle (some (s.cfg.getD (placedConfig s.plat))) i s
  | .registerCallbacks => placeHostOp .idle (some (s.cfg.getD (placedConfig s.plat))) i s
  | .frameCNW1 v => placeFrame .command .disabled .w1 v s
  | .frameCNW2 v => placeFrame .command .disabled .w2 v s
  | .frameCNW3 v => placeFrame .command .disabled .w3 v s
  | .frameCNW4 v => placeFrame .command .disabled .w4 v s
  | .frameCLCW1 v => placeFrame .command .lowMeansCommand .w1 v s
  | .frameCLCW2 v => placeFrame .command .lowMeansCommand .w2 v s
  | .frameCLCW3 v => placeFrame .command .lowMeansCommand .w3 v s
  | .frameCLCW4 v => placeFrame .command .lowMeansCommand .w4 v s
  | .frameCLDW1 v => placeFrame .command .lowMeansData .w1 v s
  | .frameCLDW2 v => placeFrame .command .lowMeansData .w2 v s
  | .frameCLDW3 v => placeFrame .command .lowMeansData .w3 v s
  | .frameCLDW4 v => placeFrame .command .lowMeansData .w4 v s
  | .framePNW1 v => placeFrame .parameter .disabled .w1 v s
  | .framePNW2 v => placeFrame .parameter .disabled .w2 v s
  | .framePNW3 v => placeFrame .parameter .disabled .w3 v s
  | .framePNW4 v => placeFrame .parameter .disabled .w4 v s
  | .framePLCW1 v => placeFrame .parameter .lowMeansCommand .w1 v s
  | .framePLCW2 v => placeFrame .parameter .lowMeansCommand .w2 v s
  | .framePLCW3 v => placeFrame .parameter .lowMeansCommand .w3 v s
  | .framePLCW4 v => placeFrame .parameter .lowMeansCommand .w4 v s
  | .framePLDW1 v => placeFrame .parameter .lowMeansData .w1 v s
  | .framePLDW2 v => placeFrame .parameter .lowMeansData .w2 v s
  | .framePLDW3 v => placeFrame .parameter .lowMeansData .w3 v s
  | .framePLDW4 v => placeFrame .parameter .lowMeansData .w4 v s

end Sys2Proof.Machine
end

