-- ==== Sys2Proof/Machine/Step.lean ====
section
/-! DEFINITION. One step of the machine, and a table word placed where the next step runs it. -/

namespace Sys2Proof.Machine

/-- One step: the next instruction of the run, or the return of a TRANSMIT that has no frame left (R13, R215, R231). -/
def step (s : State) : Host.Outcome State Fault Refusal :=
  match fetch s with
  | .run i s' => exec i s'
  | .finish   => .next (reply .ok (endTransmit s))
  | .stuck f  => .fault f
  | .ended    => .refused .noOperationIssued

/-- The state in which the next step runs the instruction of a table word (logs 10, 12). -/
def State.withFetchWord (s : State) (nbits w : Nat) : State :=
  match decodeTableWord nbits w with
  | some i => place i s
  | none   => s

end Sys2Proof.Machine
end

