-- ==== Sys2Proof/Machine/Waveform.lean ====
section
/-! DEFINITION. The waveforms the rules give each operation, as lists of events: what claims about the wire are stated in.
Nothing here is part of a step. -/

namespace Sys2Proof.Machine

/-! ## The events of successful operations -/

/-- The five events of one bit (R108). -/
def bitEvents (c : BusConfig) (x : Level) : List Event :=
  [.set .sda x true, .set .scl c.preEdge true, delayEvent c.halfPeriodUs,
   .set .scl c.postEdge true, delayEvent c.halfPeriodUs]

/-- The events before the first bit of a frame (R109). -/
def openEvents (c : BusConfig) : List Event :=
  [.set .cs c.csActive true, delayEvent c.halfPeriodUs, .set .scl c.preEdge true]

/-- The events after the last bit of a frame (R109). -/
def closeEvents (c : BusConfig) : List Event :=
  [.set .scl c.sclIdle true, .set .sda c.sdaIdle true, delayEvent c.halfPeriodUs,
   .set .cs (!c.csActive) true, delayEvent c.halfPeriodUs]

/-- The events of one frame (R109). -/
def frameEvents (c : BusConfig) (k : FrameKind) (v : Word) : List Event :=
  openEvents c ++ (c.frameBits k v).flatMap (bitEvents c) ++ closeEvents c

/-- The six events of a CREATE (R211). -/
def createEvents (c : BusConfig) : List Event :=
  [.cfgOut .cs true, .cfgOut .scl true, .cfgOut .sda true,
   .set .cs (!c.csActive) true, .set .scl c.sclIdle true, .set .sda c.sdaIdle true]

/-- The events of a TEARDOWN (R221). -/
def teardownEvents (keepCs : Bool) : List Event :=
  [.rel .scl true, .rel .sda true] ++ (if keepCs then [] else [.rel .cs true])

/-- Parameter word number `i` of width `w` bytes: the sum of `byte j * 2^(8j)` (R64). -/
def paramValue (bytes : List Byte) (w i : Nat) : Nat :=
  ((List.range w).map fun j => (bytes.getD (i * w + j) 0).toNat * 2 ^ (8 * j)).sum

/-- The words a TRANSMIT sends, each with its kind (R215, R217, R218). -/
def transmitWords (c : BusConfig) (cmd : Option Word) (bytes : List Byte) : List (FrameKind × Word) :=
  (commandWord cmd).toList.map (fun v => (FrameKind.command, v)) ++
    (List.range (bytes.length / c.paramBytes.bytes)).map fun i =>
      (FrameKind.parameter, BitVec.ofNat 32 (paramValue bytes c.paramBytes.bytes i))

/-- The events of a TRANSMIT: one frame per word (R215). -/
def transmitEvents (c : BusConfig) (cmd : Option Word) (params : Option (List Byte)) : List Event :=
  (transmitWords c cmd (bufferBytes params)).flatMap fun f => frameEvents c f.1 f.2

/-- The releases of an unwinding, each with the answer it gets (R213). -/
def releaseEvents (ls : List Line) (answers : List Bool) : List Event :=
  List.zipWith Event.rel ls answers

/-- The lines a CREATE that fails at its line operation number `k` (from 0) releases, in the order of the releases (R213). -/
def unwoundLines (k : Nat) : List Line :=
  match k with
  | 0 => []
  | 1 => [.cs]
  | 2 => [.scl, .cs]
  | _ => [.sda, .scl, .cs]

/-! ## Failures -/

/-- The event is a line operation that failed (R12). -/
def isFailed : Event → Bool
  | .cfgOut _ ok => !ok
  | .set _ _ ok  => !ok
  | .rel _ ok    => !ok
  | .dly _ _     => false

/-- The same line operation, failed; a delay cannot fail (R156). -/
def failedEvent : Event → Event
  | .cfgOut l _ => .cfgOut l false
  | .set l v _  => .set l v false
  | .rel l _    => .rel l false
  | .dly us m   => .dly us m

/-- The event is a line operation, which asks the oracle. -/
def isLineEvent : Event → Bool
  | .cfgOut _ _ => true
  | .set _ _ _  => true
  | .rel _ _    => true
  | .dly _ _    => false

/-- The line an event is on; a delay is on none. -/
def eventLine : Event → Option Line
  | .cfgOut l _ => some l
  | .set l _ _  => some l
  | .rel l _    => some l
  | .dly _ _    => none

/-- How often the clock goes from one level to another in a list of events, when it is at `cur` before them (R110). -/
def clockEdges (before after cur : Level) : List Event → Nat
  | [] => 0
  | .set .scl v true :: es => (if cur = before ∧ v = after then 1 else 0) + clockEdges before after v es
  | .set .scl _ false :: es => clockEdges before after cur es
  | .set .cs _ _ :: es => clockEdges before after cur es
  | .set .sda _ _ :: es => clockEdges before after cur es
  | .cfgOut _ _ :: es => clockEdges before after cur es
  | .rel _ _ :: es => clockEdges before after cur es
  | .dly _ _ :: es => clockEdges before after cur es

/-- The event is a write of a level. -/
def isSetEvent : Event → Bool
  | .cfgOut _ _ => false
  | .set _ _ _  => true
  | .rel _ _    => false
  | .dly _ _    => false

/-- The event is a delay. -/
def isDelayEvent : Event → Bool
  | .cfgOut _ _ => false
  | .set _ _ _  => false
  | .rel _ _    => false
  | .dly _ _    => true

/-- How many line operations a waveform performs. -/
def lineCount (es : List Event) : Nat := es.countP isLineEvent

/-- A waveform cut short by the failure of its line operation number `k`, counted from 0: every event before it happened, it
is the last one, and it failed (R257). -/
def failAt : Nat → List Event → List Event
  | _, [] => []
  | k, e :: es =>
    if isLineEvent e then
      match k with
      | 0 => [failedEvent e]
      | k + 1 => e :: failAt k es
    else e :: failAt k es

/-! ## What events do to the lines -/

/-- The drivers after an event (R36). -/
def pinsAfterEvent (p : Lines PinState) : Event → Lines PinState
  | .cfgOut l ok => p.set l (pinAfter (.cfgOut l) ok (p.get l))
  | .set l v ok  => p.set l (pinAfter (.set l v) ok (p.get l))
  | .rel l ok    => p.set l (pinAfter (.rel l) ok (p.get l))
  | .dly _ _     => p

/-- The drivers after a list of events, oldest first (R36). -/
def pinsAfter (p : Lines PinState) (es : List Event) : Lines PinState :=
  es.foldl pinsAfterEvent p

/-- The lines after events that used up the answers before `rest`. -/
def busAfter (b : Bus) (es : List Event) (rest : List Bool) : Bus where
  pin      := pinsAfter b.pin es
  trace    := b.trace ++ es
  ioFailed := b.ioFailed || es.any isFailed
  answers  := rest

/-! ## Working registers -/

/-- The working registers after a whole frame (R192, R172, R40): the word and its width, the index of the last byte, the
shift register shifted empty, the position of the last bit and the discriminator of the last byte; `F` is not touched. -/
def workAfterFrame (c : BusConfig) (k : FrameKind) (v : Word) (r : Work) : Work :=
  let d := if c.bytes k = .w1 then c.dc k else none
  { r with
    v := some (truncate (c.bytes k) v)
    w := some (c.bytes k)
    k := some (BitVec.ofNat 2 ((c.bytes k).bytes - 1))
    s := some 0#8
    n := some (if d = none then 7#4 else 8#4)
    d := some d }

/-! ## Requested time -/

/-- The microseconds an event asks for (R159). -/
def requestedUs : Event → Nat
  | .dly us _ => us
  | .cfgOut _ _ => 0
  | .set _ _ _ => 0
  | .rel _ _ => 0

/-- The sum of the requested delays of a list of events (R159, R301). -/
def totalRequestedUs (es : List Event) : Nat := (es.map requestedUs).sum

end Sys2Proof.Machine
end

