-- ==== Sys2Proof/Machine/Sampler.lean ====
section
/-! DEFINITION. The reference sampler (R112): what an ideal receiver records of a trace. Nothing here is part of a step. -/

namespace Sys2Proof.Machine

/-- The sampler's walk: the level of the latest successful `Set` of each line, the bits of the frame that is open, and the
frames that are complete (R112). -/
structure Sampler where
  lvl    : Lines (Option Level)
  frame  : Option (List Level)
  frames : List (List Level)
deriving DecidableEq, Repr

/-- Before the first event: no line has a level, no frame is open. -/
def Sampler.start : Sampler where
  lvl    := { cs := none, scl := none, sda := none }
  frame  := none
  frames := []

/-- An active edge of `SCL` while `CS` is active: one sample of `SDA`; none where `SDA` has no level yet (R112). -/
def sampleBit (st : Sampler) : Option Sampler :=
  match st.lvl.sda with
  | none   => none
  | some x => some { st with frame := st.frame.map (· ++ [x]) }

/-- A successful write of a level (R112). `CS` going active opens a frame, going inactive completes the open one. -/
def sampleSet (c : BusConfig) (l : Line) (v : Level) (st : Sampler) : Option Sampler :=
  match l with
  | .sda => some { st with lvl := { st.lvl with sda := some v } }
  | .scl =>
    (if v = c.postEdge ∧ st.lvl.scl = some c.preEdge ∧ st.lvl.cs = some c.csActive then sampleBit st else some st).map
      fun st => { st with lvl := { st.lvl with scl := some v } }
  | .cs =>
    some
      (if v = c.csActive then
        { st with lvl := { st.lvl with cs := some v }, frame := some (st.frame.getD []) }
      else
        { st with lvl := { st.lvl with cs := some v }, frame := none, frames := st.frames ++ st.frame.toList })

/-- One event; the sampler is not defined on a failed one (R112). -/
def sampleEvent (c : BusConfig) (e : Event) (st : Sampler) : Option Sampler :=
  if isFailed e then none
  else
    match e with
    | .set l v _  => sampleSet c l v st
    | .cfgOut _ _ => some st
    | .rel _ _    => some st
    | .dly _ _    => some st

/-- The walk over a trace. -/
def sampleEvents (c : BusConfig) : List Event → Sampler → Option Sampler
  | [],      st => some st
  | e :: es, st => (sampleEvent c e st).bind (sampleEvents c es)

/-- `recorded(trace)`: the recorded bit sequences, one per complete frame; none where the trace holds a failed event or a
sample of a line that has no level (R112). -/
def recorded (c : BusConfig) (trace : List Event) : Option (List (List Level)) :=
  (sampleEvents c trace Sampler.start).map Sampler.frames

end Sys2Proof.Machine
end

