-- ==== Sys2Proof/Safety.lean ====
section
/-! DEFINITION. What a sound state is, in the terms the claims use: the lines at rest (R39) and the invariant that every step
keeps. -/

namespace Sys2Proof.Machine

/-- The lines at rest: `CS` inactive, clock and data at their idle levels (R39). -/
def atRest (c : BusConfig) (p : Lines PinState) : Prop :=
  p.cs = PinState.out (!c.csActive) ∧ p.scl = PinState.out c.sclIdle ∧ p.sda = PinState.out c.sdaIdle

/-- An instance exists (R21). -/
def hasInstance (s : State) : Prop :=
  s.phase = .idle ∨ s.phase = .transacting

/-- An `Expander` option has its handle (R99, R212). -/
def HandlePresent : LineOption → Prop
  | .native _     => True
  | .expander h _ => h ≠ none

/-- `Valid(opts)` (R212): both widths 1 to 4, the clock absent, 0 or at most the ceiling, no expander without a handle. -/
def OptionsValid (p : Platform) (o : Options) : Prop :=
  (1 ≤ o.commandByteWidth ∧ o.commandByteWidth ≤ 4) ∧
  (1 ≤ o.parameterByteWidth ∧ o.parameterByteWidth ≤ 4) ∧
  (∀ f, o.clockHz = some f → f = 0 ∨ f ≤ p.clkMaxHz) ∧
  HandlePresent o.csLine ∧ HandlePresent o.sclLine ∧ HandlePresent o.sdaLine

/-- The binding of a line option (R34, R99). -/
def BoundAs : LineOption → LineBinding → Prop
  | .native id,     b => b = .native id
  | .expander h id, b => ∃ x, h = some x ∧ b = .expander x id

/-- The configuration a valid record of options decodes to, field by field (R92 to R98, R152). -/
structure DecodedFrom (p : Platform) (o : Options) (c : BusConfig) : Prop where
  clock     : c.clockHz = match o.clockHz with
                | none => p.clkMaxHz
                | some f => if f = 0 then p.clkMaxHz else f
  half      : c.halfPeriodUs = 500000 / c.clockHz
  cmd       : c.cmdBytes.bytes = o.commandByteWidth
  param     : c.paramBytes.bytes = o.parameterByteWidth
  bitOrder  : c.lsbFirst = o.lsbFirst
  policy    : c.dcPolicy =
                if o.useDiscriminatorBit = false then .disabled
                else if o.discriminatorLowMeansData = false then .lowMeansCommand else .lowMeansData
  csLevel   : c.csActive = o.csActiveHigh
  clockIdle : c.sclIdle = (p.modeDecode.row o.spiMode).idle
  dataIdle  : c.sdaIdle = (p.modeDecode.row o.spiMode).idle
  edge      : c.activeEdge = (p.modeDecode.row o.spiMode).edge
  keep      : c.keepCs = o.keepCsAssertedOnTeardown

/-- What a valid configuration keeps: the clock between 1 and the ceiling (R23), `H` computed from it (R24, R152), both idle
levels the same (R30). -/
structure ConfigSound (p : Platform) (c : BusConfig) : Prop where
  clockPositive : 1 ≤ c.clockHz
  clockBounded  : c.clockHz ≤ p.clkMaxHz
  halfPeriod    : c.halfPeriodUs = 500000 / c.clockHz
  idleLevels    : c.sdaIdle = c.sclIdle

/-- Three bindings, on three different pins (R34, R45, D24). -/
def boundApart (b : Lines (Option LineBinding)) : Prop :=
  ∃ x y z, b = { cs := some x, scl := some y, sda := some z } ∧ x ≠ y ∧ x ≠ z ∧ y ≠ z

/-- The buffer holds every byte of a requested word (R68). -/
def requestInBuffer (c : BusConfig) (m : Memory) : FrameReq → Prop
  | .command _ => True
  | .parameter i => i * c.paramBytes.bytes + c.paramBytes.bytes ≤ m.length

/-- The invariant of the machine. -/
structure Inv (s : State) : Prop where
  /-- CLK_MAX_HZ is at least 1 (R7). -/
  ceiling : 1 ≤ s.plat.clkMaxHz
  /-- An instance has a sound configuration and three bindings on different pins (R21, R23 to R34). -/
  configured : hasInstance s → ∃ c, s.cfg = some c ∧ ConfigSound s.plat c ∧ boundApart s.bind
  /-- Without an instance, neither `cfg` nor a binding has a value (R21, R44). -/
  unconfigured : ¬ hasInstance s → s.cfg = none ∧ s.bind = unbound
  /-- Before an instance exists no line is an output (R21, R213). -/
  unowned : s.phase = .uninitialized → ∀ l, (s.bus.pin.get l).isOutput = false
  /-- The rest levels, between operations and between frames, unless a line operation ever failed (R39, R200). -/
  rest : hasInstance s → s.bus.ioFailed = false → ∀ c, s.cfg = some c → atRest c s.bus.pin
  /-- Outside a TRANSMIT no working register and no operand has a value (R40, R60). -/
  quiet : s.phase ≠ .transacting → s.work = Work.empty ∧ s.mem = [] ∧ s.todo = []
  /-- The buffer space keeps its canonical form (R61). -/
  buffer : Memory.wf s.mem = true
  /-- Every frame still to be sent has its word in the buffer (R68). -/
  requests : ∀ c, s.cfg = some c → ∀ r ∈ s.todo, requestInBuffer c s.mem r
  /-- `io_failed` is set exactly when the trace holds a failed operation (R38). -/
  failures : s.bus.ioFailed = s.bus.trace.any isFailed

end Sys2Proof.Machine
end

