-- ==== Sys2Proof/Certificates/Slice0/Obligations.lean ====
section
/-! DEFINITION. The statements for the provers. Each says in its docstring which rule or section of spec/ it formalises, and
where it rests on a decision of the spec (D<n>) or on a choice of the model (log <n>). `b.answers = replicate n true ++ rest`
says that the environment answers the next `n` line operations with success (R14, log 3). -/

open Sys2Proof Sys2Proof.Machine

/-! ## Reset, steps, invariants -/

/-- 70 section 1, 10 section 11 (R44, R280; that reset is this state is the spec's decision D15): reset is `Uninitialized`,
nothing configured, nothing bound, no working register, all three pins `Unowned`, an empty trace, no failure. -/
def Obligations.ResetHoldsNothing : Prop :=
  State.reset.phase = .uninitialized ∧ State.reset.cfg = none ∧
  State.reset.bind = { cs := none, scl := none, sda := none } ∧
  State.reset.work = { v := none, w := none, k := none, s := none, n := none, d := none, f := none } ∧
  State.reset.bus.pin = { cs := .unowned, scl := .unowned, sda := .unowned } ∧
  State.reset.bus.trace = [] ∧ State.reset.bus.ioFailed = false

/-- The invariant of Safety.lean holds after reset. -/
def Obligations.ResetMeetsInvariant : Prop := Inv State.reset

/-- 10 section 7 and R20 to R44: every step from a state that meets the invariant gives a state that meets it. -/
def Obligations.EveryStepKeepsInvariant : Prop :=
  ∀ s t : State, Inv s → step s = .next t → Inv t

/-- R44, R61, R68: a state that meets the invariant never stops with a fault; it goes on, or it refuses what the host asks. -/
def Obligations.InvariantStatesNeverFault : Prop :=
  ∀ (s : State) (f : Fault), Inv s → step s ≠ .fault f

/-- R36, R37, R38 (the pin states are the spec's decision D10, the sticky bit D12): every step only appends to the trace; the
drivers move as the appended events say and in no other way; `io_failed` is set exactly by a failed event and never cleared;
the platform's parameters do not change (R7). -/
def Obligations.StepsAppendEventsAndPinsFollowThem : Prop :=
  ∀ s t : State, step s = .next t →
    t.plat = s.plat ∧
    ∃ es, t.bus.trace = s.bus.trace ++ es ∧ t.bus.pin = pinsAfter s.bus.pin es ∧
      t.bus.ioFailed = (s.bus.ioFailed || es.any isFailed)

/-- R33: from CREATE's `Ok` until TEARDOWN no step writes a field of `cfg` or a binding. -/
def Obligations.ConfigurationIsImmutable : Prop :=
  ∀ s t : State, hasInstance s → step s = .next t → t.phase ≠ .released → t.cfg = s.cfg ∧ t.bind = s.bind

/-- 10 section 2 (R22; the row of a failed TRANSMIT is D12): the phase transitions of a step, and of each host operation by
its result. A step from `Released` gives no next state. Two clauses are the model's step size and no row of R22: a step from
`Idle` is never seen in `Transacting`, because one step runs a whole TRANSMIT (log 32), and a step from `Transacting` may stay
there, because it runs one frame of a TRANSMIT in progress (log 8). -/
def Obligations.PhasesMoveAsTheTableSays : Prop :=
  (∀ s t : State, step s = .next t →
    (s.phase = .uninitialized ∧ (t.phase = .uninitialized ∨ t.phase = .idle)) ∨
    (s.phase = .idle ∧ (t.phase = .idle ∨ t.phase = .released)) ∨
    (s.phase = .transacting ∧ (t.phase = .transacting ∨ t.phase = .idle))) ∧
  (∀ (o : Options) (s t : State), exec (.create o) s = .next t →
    (t.results = s.results ++ [.ok] ∧ t.phase = .idle) ∨ (t.results ≠ s.results ++ [.ok] ∧ t.phase = .uninitialized)) ∧
  (∀ (cmd : Option Word) (ps : Option (List Byte)) (s t : State), exec (.transmit cmd ps) s = .next t → t.phase = .idle) ∧
  (∀ s t : State, exec .teardown s = .next t → t.phase = .released) ∧
  (∀ (i : Instr) (s t : State), i = .rxParam ∨ i = .txColor ∨ i = .registerCallbacks → exec i s = .next t → t.phase = .idle)

/-- 44 section 6 (R230; that such an operation is refused is the spec's decision D15): any operation but CREATE before an
instance exists, CREATE when one exists, any operation while a TRANSMIT runs or after TEARDOWN; and a frame outside a TRANSMIT
(the frames are no operations of the host, R120, R190). -/
def Obligations.InadmissibleOperationsAreRefused : Prop :=
  ∀ s : State,
    (∀ o, s.phase ≠ .uninitialized → exec (.create o) s = .refused (.notAdmitted "CREATE" s.phase)) ∧
    (∀ cmd ps, s.phase ≠ .idle → exec (.transmit cmd ps) s = .refused (.notAdmitted "TRANSMIT" s.phase)) ∧
    (s.phase ≠ .idle → exec .teardown s = .refused (.notAdmitted "TEARDOWN" s.phase)) ∧
    (s.phase ≠ .idle → exec .rxParam s = .refused (.notAdmitted "RX_PARAM" s.phase)) ∧
    (s.phase ≠ .idle → exec .txColor s = .refused (.notAdmitted "TX_COLOR" s.phase)) ∧
    (s.phase ≠ .idle → exec .registerCallbacks s = .refused (.notAdmitted "REGISTER_CALLBACKS" s.phase)) ∧
    (∀ k p w v, s.phase ≠ .transacting → ∃ m, exec (frameInstr k p w v) s = .refused (.notAdmitted m s.phase))

/-- 44 section 7, R13, R74, R215: outside a TRANSMIT a step runs the host's oldest operation (the host's list is log 1), and
is refused when there is none (the end of the run, R284; log 14); inside one it runs the next frame in the format `cfg`
selects, with the word of the request, whatever the host has waiting, and when no frame is left the TRANSMIT returns `Ok`
(`todo` and `mem` between the frames are log 8). A frame left where `cfg` has no value, or where the buffer does not hold its
word, is a fault (log 15; R44, R61). -/
def Obligations.StepRunsTheNextInstruction : Prop :=
  ∀ s : State,
    (∀ i rest, s.phase ≠ .transacting → s.pending = i :: rest → step s = exec i { s with pending := rest }) ∧
    (s.phase ≠ .transacting → s.pending = [] → step s = .refused .noOperationIssued) ∧
    (s.phase = .transacting → s.todo = [] →
      step s = .next { s with phase := .idle, work := Work.empty, mem := [], todo := [], results := s.results ++ [.ok] }) ∧
    (∀ c v rest, s.phase = .transacting → s.cfg = some c → s.todo = .command v :: rest →
      step s = exec (frameInstr .command c.dcPolicy c.cmdBytes (BitVec.ofNat 32 (v.toNat % 2 ^ (8 * c.cmdBytes.bytes))))
        { s with todo := rest }) ∧
    (∀ c i rest x, s.phase = .transacting → s.cfg = some c → s.todo = .parameter i :: rest →
      readWord s.mem (i * c.paramBytes.bytes) c.paramBytes.bytes = some x →
      step s = exec (frameInstr .parameter c.dcPolicy c.paramBytes
          (BitVec.ofNat 32 ((BitVec.ofNat 32 x).toNat % 2 ^ (8 * c.paramBytes.bytes))))
        { s with todo := rest, work := { s.work with f := some i } }) ∧
    (∀ c i rest, s.phase = .transacting → s.cfg = some c → s.todo = .parameter i :: rest →
      readWord s.mem (i * c.paramBytes.bytes) c.paramBytes.bytes = none → step s = .fault .bufferOffsetAbsent) ∧
    (∀ r rest, s.phase = .transacting → s.cfg = none → s.todo = r :: rest → step s = .fault .configurationAbsent)

/-- The model's own reading of a bare table word (logs 10, 12): the step after placing one runs the instruction the decoder
reads from it, to a next state, on a state with the same lines, working registers, buffer, results, host list and platform. -/
def Obligations.PlacedTableWordRunsNext : Prop :=
  ∀ (s : State) (nbits w : Nat) (i : Instr), decodeTableWord nbits w = some i →
    ∃ s' t : State, s'.bus = s.bus ∧ s'.work = s.work ∧ s'.mem = s.mem ∧ s'.results = s.results ∧ s'.pending = s.pending ∧
      s'.plat = s.plat ∧ exec i s' = .next t ∧ step (s.withFetchWord nbits w) = .next t

/-! ## Encodings -/

/-- 30 sections 3, 4, 8: decoding the encoding of any well-formed instruction, of any family and with every operand at every
value, gives it back, in both bit orders. -/
def Obligations.DecodingAnEncodingGivesTheInstruction : Prop :=
  ∀ (lsbFirst : Bool) (i : Instr), i.wellFormed = true → decode (encode lsbFirst i) = .instr i

/-- 30 sections 3, 4: a bit string that decodes in a format is the encoding of the well-formed instruction it decodes to: no
bit of a frame is dropped. -/
def Obligations.DecodedFramesEncodeBack : Prop :=
  ∀ (k : FrameKind) (p : DcPolicy) (w : Width) (lsbFirst : Bool) (bits : List Level) (i : Instr),
    decode (.wire k p w lsbFirst bits) = .instr i → i.wellFormed = true ∧ encode lsbFirst i = .wire k p w lsbFirst bits

/-- Words written out from the spec's own examples (95: X1, P2, V31; 30 section 8): they decode to the instructions they
stand for, and a wrong length, a wrong discriminator and the selectors that name no operation are rejected by name. -/
def Obligations.ExampleWordsDecode : Prop :=
  decode (.wire .command .lowMeansCommand .w1 false [false, false, false, true, false, true, false, true, false]) =
    .instr (.frameCLCW1 0x2A#32) ∧
  decode (.wire .parameter .lowMeansCommand .w1 false [true, true, true, false, true, false, true, true, true]) =
    .instr (.framePLCW1 0xD7#32) ∧
  decode (.wire .command .lowMeansData .w1 true [true, false, false, false, false, true, true, false, true]) =
    .instr (.frameCLDW1 0xB0#32) ∧
  decode (.wire .command .disabled .w2 true
      [false, true, false, false, true, false, false, false, false, false, true, false, true, true, false, false]) =
    .instr (.frameCNW2 0x1234#32) ∧
  decode (.hostOp 2#3 .none) = .instr .teardown ∧ decode (.hostOp 4#3 .none) = .instr .txColor ∧
  decode (.hostOp 6#3 .none) = .rejected .noSuchOperation ∧ decode (.hostOp 7#3 .none) = .rejected .noSuchOperation ∧
  decode (.wire .command .lowMeansCommand .w1 false [true, false, false, true, false, true, false, true, false]) =
    .rejected .wrongDiscriminator ∧
  decode (.wire .command .lowMeansCommand .w1 false [false, false, true]) = .rejected .wrongFrameLength

/-- R101: a frame has `8*W` bits without the discriminator and `8*W + 1` with it; the extra bit is one, and it is the first.
-/
def Obligations.FrameLengthIsAsTheRuleSays : Prop :=
  ∀ (k : FrameKind) (w : Width) (lsbFirst : Bool) (v : Word),
    (frameBits k .disabled w lsbFirst v).length = 8 * w.bytes ∧
    ∀ p, p ≠ .disabled →
      (frameBits k p w lsbFirst v).length = 8 * w.bytes + 1 ∧
      ∃ d, frameBits k p w lsbFirst v = d :: frameBits k .disabled w lsbFirst v

/-- R102: wire byte `K` is `byte_(W-1-K)(v)`, most significant byte first, and inside it the bit at relative position `r` is
bit `7-r`, or bit `r` when the bit order is least significant first; the discriminator, when enabled, is at position 0. -/
def Obligations.FrameBitsStandWhereTheRuleSays : Prop :=
  ∀ (k : FrameKind) (p : DcPolicy) (w : Width) (lsbFirst : Bool) (v : Word) (K r : Nat), K < w.bytes → r < 8 →
    (frameBits k p w lsbFirst v)[(if p = .disabled then 0 else 1) + 8 * K + r]? =
      some (v.getLsbD (8 * (w.bytes - 1 - K) + (if lsbFirst then r else 7 - r))) ∧
    (p ≠ .disabled → (frameBits k p w lsbFirst v)[0]? = dcOf k p)

/-- R103: the discriminator depends on the kind and the policy alone. Disabled, the two kinds are the same bits (R106). -/
def Obligations.DiscriminatorDependsOnKindAndPolicyOnly : Prop :=
  ∀ (w : Width) (lsbFirst : Bool) (v : Word),
    (frameBits .command .lowMeansCommand w lsbFirst v).head? = some false ∧
    (frameBits .parameter .lowMeansCommand w lsbFirst v).head? = some true ∧
    (frameBits .command .lowMeansData w lsbFirst v).head? = some true ∧
    (frameBits .parameter .lowMeansData w lsbFirst v).head? = some false ∧
    frameBits .command .disabled w lsbFirst v = frameBits .parameter .disabled w lsbFirst v

/-! ## Line operations, delays, bits, bytes -/

/-- 40 section 2 (R131; `OutX` after output enable is D10): LINE_CFG_OUT asks the oracle once and moves its own line only. -/
def Obligations.LineCfgOutAsTheRuleSays : Prop :=
  ∀ (l : Line) (b : Bus),
    let ok := match b.answers with | a :: _ => a | [] => Config.ioOk b.trace (.cfgOut l)
    let b' : Bus :=
      { pin := b.pin.set l (if ok then .outX else .unknown), trace := b.trace ++ [.cfgOut l ok]
        ioFailed := b.ioFailed || !ok, answers := b.answers.tail }
    lineCfgOut l b = if ok then .ok b' else .ioError b'

/-- 40 section 3 (R133, R134; `OutX` after a failure is D10): LINE_SET, performed whatever the line drives already. -/
def Obligations.LineSetAsTheRuleSays : Prop :=
  ∀ (l : Line) (v : Level) (b : Bus),
    let ok := match b.answers with | a :: _ => a | [] => Config.ioOk b.trace (.set l v)
    let p := b.pin.get l
    let b' : Bus :=
      { pin := b.pin.set l
          (if ok then (if v then .out1 else .out0) else if p = .out0 ∨ p = .out1 ∨ p = .outX then .outX else .unknown)
        trace := b.trace ++ [.set l v ok], ioFailed := b.ioFailed || !ok, answers := b.answers.tail }
    lineSet l v b = if ok then .ok b' else .ioError b'

/-- 40 section 4 (R135): LINE_RELEASE. -/
def Obligations.LineReleaseAsTheRuleSays : Prop :=
  ∀ (l : Line) (b : Bus),
    let ok := match b.answers with | a :: _ => a | [] => Config.ioOk b.trace (.rel l)
    let b' : Bus :=
      { pin := b.pin.set l (if ok then .input else .unknown), trace := b.trace ++ [.rel l ok]
        ioFailed := b.ioFailed || !ok, answers := b.answers.tail }
    lineRelease l b = if ok then .ok b' else .ioError b'

/-- R156: a delay appends one event with the half period and its mode, and changes nothing else. -/
def Obligations.DelayAppendsOneEvent : Prop :=
  ∀ (c : BusConfig) (b : Bus),
    delay c b = { b with
      trace := b.trace ++ [.dly c.halfPeriodUs (if 1000 ≤ c.halfPeriodUs then .sleep else .busy)] }

/-- 41 section 2 and 3 (R152 to R155; the floor is D5): the half period, when it is 0, its bound, that its nominal clock is
never below the request, and that the mode is `Sleep` exactly for a clock of at most 500 hertz. -/
def Obligations.HalfPeriodAndModeFollowTheClock : Prop :=
  ∀ f : Nat, 1 ≤ f →
    calcHalfPeriod f = 500000 / f ∧ calcHalfPeriod f ≤ 500000 ∧ calcHalfPeriod f * f ≤ 500000 ∧
    (calcHalfPeriod f = 0 ↔ 500000 < f) ∧ (delayMode (calcHalfPeriod f) = .sleep ↔ f ≤ 500)

/-- 42 section 2 (R171; the order of the clock's two writes is D1): the five events of SEND_BIT when all three writes succeed,
with the lines they leave, and where it stops when one fails. -/
def Obligations.SendBitMakesOneClockCycle : Prop :=
  ∀ (c : BusConfig) (x : Level) (b : Bus) (rest : List Bool),
    let P := decide (c.activeEdge = .falling)
    let d := delayEvent c.halfPeriodUs
    let es := [Event.set .sda x true, .set .scl P true, d, .set .scl (!P) true, d]
    (b.answers = [true, true, true] ++ rest →
      sendBit c x b = .ok
        { pin := { b.pin with scl := PinState.out (!P), sda := PinState.out x }
          trace := b.trace ++ es, ioFailed := b.ioFailed, answers := rest }) ∧
    (∀ k, k < 3 → b.answers = List.replicate k true ++ false :: rest →
      sendBit c x b = .ioError (busAfter b (failAt k es) rest))

/-- 42 section 3 (R172 to R174): SEND_BYTE sends the discriminator, if any, and then the eight bits in the order of
`cfg.lsb_first`, each with its five events; the shift register ends empty. (What index `N` holds is log 7.) -/
def Obligations.SendByteSendsItsBitsInOrder : Prop :=
  ∀ (c : BusConfig) (d : Option Level) (x : Byte) (s : State) (rest : List Bool),
    let bits := d.toList ++ (List.range 8).map fun i => x.getLsbD (if c.lsbFirst then i else 7 - i)
    s.bus.answers = List.replicate (3 * bits.length) true ++ rest →
      sendByte c d x s = .ok
        { s with
          bus := busAfter s.bus (bits.flatMap (bitEvents c)) rest
          work := { s.work with s := some 0#8, n := some (if d = none then 7#4 else 8#4), d := some d } } ∧
      (bits.flatMap (bitEvents c)).length = 5 * bits.length

/-! ## The 24 frame formats -/

/-- 43 section 2 (R192; the order of the two idle writes is D9, the bit's clock order D1, the working registers D29; what `N`
holds after the frame is log 7, and that `K`, `N` and the empty `S` stand in the state after it is log 32): every one of the
24 frame formats, FRAME.C and FRAME.P with policies N, LC, LD and widths W1 to W4 (`frameInstr` names them), completes when a
TRANSMIT is in progress, `cfg` selects the format and the frame's `3*n + 5` line operations succeed: it appends the events of
its frame (R109) and changes nothing but the lines and the working registers. -/
def Obligations.FrameFormatsComplete : Prop :=
  ∀ (k : FrameKind) (p : DcPolicy) (w : Width) (v : Word) (s : State) (c : BusConfig) (rest : List Bool),
    s.phase = .transacting → s.cfg = some c → c.dcPolicy = p → c.bytes k = w →
    s.bus.answers = List.replicate (3 * (8 * w.bytes + if p = .disabled then 0 else 1) + 5) true ++ rest →
    exec (frameInstr k p w v) s = .next
      { s with bus := busAfter s.bus (frameEvents c k v) rest, work := workAfterFrame c k v s.work }

/-- 43 section 2 (R199, R219; the phase after it is D12; the events before it stand in the orders of D1 and D9): the failure
of line operation `j` of a frame ends it there, and ends the TRANSMIT in progress with `IoError`; `cfg` and the bindings stay.
-/
def Obligations.FrameFailureEndsTheTransmit : Prop :=
  ∀ (k : FrameKind) (p : DcPolicy) (w : Width) (v : Word) (s : State) (c : BusConfig) (j : Nat) (rest : List Bool),
    s.phase = .transacting → s.cfg = some c → c.dcPolicy = p → c.bytes k = w →
    j < 3 * (8 * w.bytes + if p = .disabled then 0 else 1) + 5 →
    s.bus.answers = List.replicate j true ++ false :: rest →
    exec (frameInstr k p w v) s = .next
      { s with
        phase := .idle, bus := busAfter s.bus (failAt j (frameEvents c k v)) rest, work := Work.empty, mem := [], todo := []
        results := s.results ++ [.ioError] }

/-- 43 section 2, R33, R61: the frame of a frame format, whatever the oracle answers: it writes neither `cfg` nor a binding
nor the host's list; while the TRANSMIT goes on, no byte of the buffer, no result, no request and not `F` changes (`todo` and
`mem` between the frames are log 8). After an `IoError` the TRANSMIT has ended (R219): the phase is `Idle` and `io_failed` is
set by D12 (log 25), and no operand is left. -/
def Obligations.FrameFormatsChangeNothingElse : Prop :=
  ∀ (k : FrameKind) (p : DcPolicy) (w : Width) (v : Word) (s t : State), exec (frameInstr k p w v) s = .next t →
    t.cfg = s.cfg ∧ t.bind = s.bind ∧ t.pending = s.pending ∧ t.plat = s.plat ∧
    ((t.phase = .transacting ∧ t.results = s.results ∧ t.todo = s.todo ∧ t.work.f = s.work.f ∧
        ∀ a, memRead t.mem a = memRead s.mem a) ∨
     (t.phase = .idle ∧ t.results = s.results ++ [.ioError] ∧ t.todo = [] ∧ t.work = Work.empty ∧ t.mem = [] ∧
        t.bus.ioFailed = true))

/-- 30 section 4 (R107; that another format is refused is the model's reading, log 13): a frame in a format `cfg` does not
select for its kind is refused. -/
def Obligations.UnselectedFormatsAreRefused : Prop :=
  ∀ (k : FrameKind) (p : DcPolicy) (w : Width) (v : Word) (s : State) (c : BusConfig),
    s.phase = .transacting → s.cfg = some c → c.dcPolicy ≠ p ∨ c.bytes k ≠ w →
    ∃ m, exec (frameInstr k p w v) s = .refused (.formatNotSelected m)

/-- 43 section 2, 41 section 3 (R198, R159): the counts of events, of `Set` and of `Dly` events of a frame of `n` bits, and
the sum of its requested delays. -/
def Obligations.FrameEventCounts : Prop :=
  ∀ (c : BusConfig) (k : FrameKind) (v : Word),
    let n := 8 * (c.bytes k).bytes + if c.dcPolicy = .disabled then 0 else 1
    (frameEvents c k v).length = 5 * n + 8 ∧
    (frameEvents c k v).countP isSetEvent = 3 * n + 5 ∧
    (frameEvents c k v).countP isDelayEvent = 2 * n + 3 ∧
    totalRequestedUs (frameEvents c k v) = (2 * n + 3) * c.halfPeriodUs

/-- 30 section 5 (R110; the clock order is D1): in one frame of `n` bits that starts with the clock at its idle level there
are exactly `n` active edges, and exactly `n` edges the other way. -/
def Obligations.FramesHaveOneActiveEdgePerBit : Prop :=
  ∀ (c : BusConfig) (k : FrameKind) (v : Word),
    let n := 8 * (c.bytes k).bytes + if c.dcPolicy = .disabled then 0 else 1
    clockEdges c.preEdge c.postEdge c.sclIdle (frameEvents c k v) = n ∧
    clockEdges c.postEdge c.preEdge c.sclIdle (frameEvents c k v) = n

/-- 43 section 2, 30 section 5 (R196, R111): a frame asserts `CS` as its first event and deasserts it as its last line event,
with a delay after the first and around the last, and nothing between them touches `CS`. -/
def Obligations.FramesAreBracketedByChipSelect : Prop :=
  ∀ (c : BusConfig) (k : FrameKind) (v : Word),
    let d := delayEvent c.halfPeriodUs
    ∃ inner, frameEvents c k v =
        [.set .cs c.csActive true, d] ++ inner ++ [d, .set .cs (!c.csActive) true, d] ∧
      ∀ e ∈ inner, eventLine e ≠ some .cs

/-- 43 section 2 (R197, R39): whatever the lines were, after a whole frame they are at rest. -/
def Obligations.FramesLeaveTheLinesAtRest : Prop :=
  ∀ (c : BusConfig) (k : FrameKind) (v : Word) (p : Lines PinState), atRest c (pinsAfter p (frameEvents c k v))

/-- 43 section 2 (R200; the sampler is D10, log 16; the clock order on which the samples in modes 1 and 3 rest is D1, log 18):
a frame that succeeds leaves the lines at rest, appends `5*n + 8` events, and
what the reference sampler records of them is `frame_bits(k, v)`, with no sample more or less. -/
def Obligations.FramesRecordTheirBits : Prop :=
  ∀ (k : FrameKind) (p : DcPolicy) (w : Width) (v : Word) (s : State) (c : BusConfig) (rest : List Bool),
    s.phase = .transacting → s.cfg = some c → c.dcPolicy = p → c.bytes k = w →
    s.bus.answers = List.replicate (3 * (8 * w.bytes + if p = .disabled then 0 else 1) + 5) true ++ rest →
    ∃ t es, exec (frameInstr k p w v) s = .next t ∧ t.bus.trace = s.bus.trace ++ es ∧
      es.length = 5 * (8 * w.bytes + if p = .disabled then 0 else 1) + 8 ∧ atRest c t.bus.pin ∧
      recorded c es = some [frameBits k p w c.lsbFirst v]

/-- 20 section 2 (R65; through the sampler of D10 and the bit order of D1): the recorded bits of a frame, read back honouring
the bit order, are the word modulo `2^(8W)`, for every width and policy. -/
def Obligations.RecordedWordsReadBack : Prop :=
  ∀ (c : BusConfig) (k : FrameKind) (v : Word), ∃ bits, recorded c (frameEvents c k v) = some [bits] ∧
    decode (.wire k c.dcPolicy (c.bytes k) c.lsbFirst bits) =
      .instr (frameInstr k c.dcPolicy (c.bytes k) (BitVec.ofNat 32 (v.toNat % 2 ^ (8 * (c.bytes k).bytes))))

/-! ## CREATE -/

/-- R212: CREATE returns `InvalidArgument` exactly for options that are not valid, and then changes nothing at all. -/
def Obligations.CreateRejectsExactlyInvalidOptions : Prop :=
  ∀ (o : Options) (s : State), s.phase = .uninitialized →
    (¬ OptionsValid s.plat o ↔ exec (.create o) s = .next { s with results := s.results ++ [.invalidArgument] }) ∧
    (OptionsValid s.plat o → ∀ t, exec (.create o) s = .next t → t.results ≠ s.results ++ [.invalidArgument])

/-- 44 section 2 (R211, R214; the order of the six events is D9): CREATE with valid options on three different pins, when its
six line operations succeed: the configuration of the options, the bindings, the six events, the lines at rest, `Idle`, `Ok`.
-/
def Obligations.CreateCompletes : Prop :=
  ∀ (o : Options) (s : State) (c : BusConfig) (x y z : LineBinding) (rest : List Bool),
    s.phase = .uninitialized → OptionsValid s.plat o → DecodedFrom s.plat o c →
    BoundAs o.csLine x → BoundAs o.sclLine y → BoundAs o.sdaLine z → x ≠ y → x ≠ z → y ≠ z →
    s.bus.answers = List.replicate 6 true ++ rest →
    exec (.create o) s = .next
      { s with
        phase := .idle, cfg := some c, bind := { cs := some x, scl := some y, sda := some z }
        bus :=
          { pin := { cs := PinState.out (!c.csActive), scl := PinState.out c.sclIdle, sda := PinState.out c.sdaIdle }
            trace := s.bus.trace ++
              [.cfgOut .cs true, .cfgOut .scl true, .cfgOut .sda true,
               .set .cs (!c.csActive) true, .set .scl c.sclIdle true, .set .sda c.sdaIdle true]
            ioFailed := s.bus.ioFailed, answers := rest }
        results := s.results ++ [.ok] }

/-- 44 section 2 (R211, R213; the order of the six events is D9, log 23; the order of the releases and that their failures are
ignored is D13, log 26): when line operation `j` of a
CREATE fails, the lines already configured are released in reverse order, each release recorded with its answer; `cfg` and the
bindings have no value and the result is the one `IoError`. -/
def Obligations.FailedCreateUnwinds : Prop :=
  ∀ (o : Options) (s : State) (c : BusConfig) (x y z : LineBinding) (j : Nat) (us rest : List Bool),
    s.phase = .uninitialized → OptionsValid s.plat o → DecodedFrom s.plat o c →
    BoundAs o.csLine x → BoundAs o.sclLine y → BoundAs o.sdaLine z → x ≠ y → x ≠ z → y ≠ z →
    j < 6 → us.length = min j 3 → s.bus.answers = List.replicate j true ++ false :: (us ++ rest) →
    let released := if j = 0 then [] else if j = 1 then [.cs] else if j = 2 then [.scl, .cs] else [Line.sda, .scl, .cs]
    exec (.create o) s = .next
      { s with
        phase := .uninitialized, cfg := none, bind := { cs := none, scl := none, sda := none }
        bus := busAfter s.bus
          (failAt j
            [.cfgOut .cs true, .cfgOut .scl true, .cfgOut .sda true,
             .set .cs (!c.csActive) true, .set .scl c.sclIdle true, .set .sda c.sdaIdle true] ++
           List.zipWith Event.rel released us) rest
        results := s.results ++ [.ioError] }

/-- 10 section 12, 60 section 8 (R45, R268; D24; what counts as one pin is log 11): valid options that bind two lines to one
pin are refused. -/
def Obligations.AliasedPinsAreRefused : Prop :=
  ∀ (o : Options) (s : State) (x y z : LineBinding), s.phase = .uninitialized → OptionsValid s.plat o →
    BoundAs o.csLine x → BoundAs o.sclLine y → BoundAs o.sdaLine z → x = y ∨ x = z ∨ y = z →
    exec (.create o) s = .refused .aliasedPins

/-- R95, R96, R98: whatever the oracle answered, a CREATE that ends in `Idle` has latched the discriminator policy, with the
discriminators that follow from it, the bit order, the active level of `CS` and the keep flag of its options; and without the
discriminator its second option is ignored. -/
def Obligations.CreateLatchesPolicyOrderLevelAndFlag : Prop :=
  ∀ (o : Options) (s : State),
    (∀ t, exec (.create o) s = .next t → t.phase = .idle →
      ∃ c, t.cfg = some c ∧
        c.dcPolicy =
          (if o.useDiscriminatorBit then
            (if o.discriminatorLowMeansData then .lowMeansData else .lowMeansCommand)
          else .disabled) ∧
        c.dc .command = (if o.useDiscriminatorBit then some o.discriminatorLowMeansData else none) ∧
        c.dc .parameter = (if o.useDiscriminatorBit then some (!o.discriminatorLowMeansData) else none) ∧
        c.lsbFirst = o.lsbFirst ∧ c.csActive = o.csActiveHigh ∧ c.keepCs = o.keepCsAssertedOnTeardown) ∧
    (∀ x, o.useDiscriminatorBit = false → exec (.create { o with discriminatorLowMeansData := x }) s = exec (.create o) s)

/-- 30 section 2 (R92 to R99, with the mode table as parameter, D2, D3, D5): whatever the oracle answered, a CREATE that ends
in `Idle` has latched the configuration and the bindings of its options, field by field (`DecodedFrom`). -/
def Obligations.CreateLatchesTheDecodedOptions : Prop :=
  ∀ (o : Options) (s t : State), exec (.create o) s = .next t → t.phase = .idle →
    ∃ c x y z, t.cfg = some c ∧ DecodedFrom s.plat o c ∧ t.bind = { cs := some x, scl := some y, sda := some z } ∧
      BoundAs o.csLine x ∧ BoundAs o.sclLine y ∧ BoundAs o.sdaLine z

/-! ## TRANSMIT -/

/-- 44 section 3 (R215 to R218; the command's type is D8, the order of a word's bytes in the buffer D7, the orders of the
events D1 and D9): a TRANSMIT whose line operations succeed appends the events of its command frame, if any, and of its `L div
Wp` parameter frames in order, is back in `Idle` with `Ok`, and keeps the configuration. -/
def Obligations.TransmitCompletes : Prop :=
  ∀ (cmd : Option Word) (params : Option (List Byte)) (s : State) (c : BusConfig) (rest : List Bool),
    s.phase = .idle → s.cfg = some c →
    let dc := if c.dcPolicy = .disabled then 0 else 1
    let nc := match cmd with | none => 0 | some v => if 0 ≤ v.toInt then 1 else 0
    s.bus.answers = List.replicate
      (nc * (3 * (8 * c.cmdBytes.bytes + dc) + 5) +
        (params.getD []).length / c.paramBytes.bytes * (3 * (8 * c.paramBytes.bytes + dc) + 5)) true ++ rest →
    exec (.transmit cmd params) s = .next
      { s with
        phase := .idle, bus := busAfter s.bus (transmitEvents c cmd params) rest, work := Work.empty, mem := [], todo := []
        results := s.results ++ [.ok] }

/-- 44 section 3 (R219; the phase after it is D12; the words are D7 and D8, the orders of the events D1 and D9): when line
operation `j` of a TRANSMIT fails, it is the last event, no later frame is started, and the result is `IoError` in `Idle`,
with the configuration kept. -/
def Obligations.TransmitStopsAtTheFirstFailure : Prop :=
  ∀ (cmd : Option Word) (params : Option (List Byte)) (s : State) (c : BusConfig) (j : Nat) (rest : List Bool),
    s.phase = .idle → s.cfg = some c → j < lineCount (transmitEvents c cmd params) →
    s.bus.answers = List.replicate j true ++ false :: rest →
    exec (.transmit cmd params) s = .next
      { s with
        phase := .idle, bus := busAfter s.bus (failAt j (transmitEvents c cmd params)) rest
        work := Work.empty, mem := [], todo := [], results := s.results ++ [.ioError] }

/-- 44 section 3 (R218; the command is D8, the sampler D10): a TRANSMIT that returns `Ok`, whatever the oracle answered, sent
`L / W` parameter frames, and one command frame iff the command is not negative, with the ruled number of events; the trailing
`L mod W` bytes are never sent: without them the outcome is the same. -/
def Obligations.TransmitSendsTheRuledNumberOfFrames : Prop :=
  ∀ (cmd : Option Word) (bytes : List Byte) (s : State) (c : BusConfig), s.phase = .idle → s.cfg = some c →
    let dc := if c.dcPolicy = .disabled then 0 else 1
    let nc := match cmd with | none => 0 | some v => if 0 ≤ v.toInt then 1 else 0
    let np := bytes.length / c.paramBytes.bytes
    exec (.transmit cmd (some (bytes.take (np * c.paramBytes.bytes)))) s = exec (.transmit cmd (some bytes)) s ∧
    ∀ t, exec (.transmit cmd (some bytes)) s = .next t → t.results = s.results ++ [.ok] →
      ∃ es frames, t.bus.trace = s.bus.trace ++ es ∧ recorded c es = some frames ∧ frames.length = np + nc ∧
        es.length = nc * (5 * (8 * c.cmdBytes.bytes + dc) + 8) + np * (5 * (8 * c.paramBytes.bytes + dc) + 8)

/-- 44 section 3, 20 section 2, 30 section 5 (R112, R215, R217, R64; the bytes of a word are D7, log 21; the command's type
D8, log 22; the sampler D10, log 16; the clock order D1, log 18): what the reference sampler records of a successful TRANSMIT
is the bits of its words, the command first, then word `i` of the buffer for each `i`. -/
def Obligations.TransmitRecordsItsWords : Prop :=
  ∀ (cmd : Option Word) (bytes : List Byte) (s : State) (c : BusConfig) (rest : List Bool),
    s.phase = .idle → s.cfg = some c →
    s.bus.answers = List.replicate (lineCount (transmitEvents c cmd (some bytes))) true ++ rest →
    ∃ t es, exec (.transmit cmd (some bytes)) s = .next t ∧ t.bus.trace = s.bus.trace ++ es ∧
      recorded c es = some
        ((match cmd with
          | none => []
          | some v => if 0 ≤ v.toInt then [frameBits .command c.dcPolicy c.cmdBytes c.lsbFirst v] else []) ++
         (List.range (bytes.length / c.paramBytes.bytes)).map fun i =>
          frameBits .parameter c.dcPolicy c.paramBytes c.lsbFirst
            (BitVec.ofNat 32 (((List.range c.paramBytes.bytes).map fun j =>
              (bytes.getD (i * c.paramBytes.bytes + j) 0).toNat * 2 ^ (8 * j)).sum)))

/-- 44 section 3 (R220): with no command frame and less than one word of parameters, whatever the oracle would answer, nothing
touches the lines and the result is `Ok`. -/
def Obligations.EmptyTransmitTouchesNothing : Prop :=
  ∀ (cmd : Option Word) (params : Option (List Byte)) (s : State) (c : BusConfig), s.phase = .idle → s.cfg = some c →
    (∀ v, cmd = some v → v.toInt < 0) → (params.getD []).length < c.paramBytes.bytes →
    exec (.transmit cmd params) s = .next
      { s with work := Work.empty, mem := [], todo := [], results := s.results ++ [.ok] }

/-- 90 C5, 30 section 3 (R61, R105, R216; D8, D25): an absent buffer is an empty one, a negative command is an absent one, and
only the low `8*W` bits of a command are sent. -/
def Obligations.TransmitOperandsThatMeanTheSame : Prop :=
  ∀ s : State,
    (∀ cmd, exec (.transmit cmd none) s = exec (.transmit cmd (some [])) s) ∧
    (∀ v params, v.toInt < 0 → exec (.transmit (some v) params) s = exec (.transmit none params) s) ∧
    (∀ v params c, s.cfg = some c → 0 ≤ v.toInt →
      exec (.transmit (some v) params) s =
        exec (.transmit (some (BitVec.ofNat 32 (v.toNat % 2 ^ (8 * c.cmdBytes.bytes)))) params) s)

/-- 44 sections 3 and 7 (R215, R231; log 8): running a TRANSMIT in progress frame by frame, one step a frame and one step for
its return, ends exactly where the operation as a whole does, whatever the oracle answers. -/
def Obligations.TransmitIsItsFramesStepByStep : Prop :=
  ∀ (cmd : Option Word) (params : Option (List Byte)) (s : State) (c : BusConfig), s.phase = .idle → s.cfg = some c →
    ∃ n, n ≤ (planFrames c cmd (params.getD []).length).length + 1 ∧
      Host.Core.run Sys2Proof.core n
        ({ s with
          phase := .transacting, mem := loadBuffer (params.getD []), todo := planFrames c cmd (params.getD []).length } : State) =
      exec (.transmit cmd params) s

/-! ## TEARDOWN and the unsupported operations -/

/-- 44 section 4 (R221, R222, R224; the order of the releases is D9, the keep flag D17): TEARDOWN when its releases succeed.
-/
def Obligations.TeardownCompletes : Prop :=
  ∀ (s : State) (c : BusConfig) (rest : List Bool), s.phase = .idle → s.cfg = some c →
    s.bus.answers = List.replicate (if c.keepCs then 2 else 3) true ++ rest →
    exec .teardown s = .next
      { s with
        phase := .released, cfg := none, bind := { cs := none, scl := none, sda := none }
        bus :=
          { pin := { cs := if c.keepCs then s.bus.pin.cs else .input, scl := .input, sda := .input }
            trace := s.bus.trace ++ [.rel .scl true, .rel .sda true] ++ (if c.keepCs then [] else [.rel .cs true])
            ioFailed := s.bus.ioFailed, answers := rest }
        results := s.results ++ [.ok] }

/-- 44 section 4 (R221, R223; the release order SCL, SDA, CS is D9, log 23; that later lines are not released is D14, log 27):
the first failing release ends TEARDOWN; the instance is
gone all the same, and the lines not yet released keep their state. -/
def Obligations.TeardownStopsAtTheFirstFailure : Prop :=
  ∀ (s : State) (c : BusConfig) (j : Nat) (rest : List Bool), s.phase = .idle → s.cfg = some c →
    j < (if c.keepCs then 2 else 3) → s.bus.answers = List.replicate j true ++ false :: rest →
    exec .teardown s = .next
      { s with
        phase := .released, cfg := none, bind := { cs := none, scl := none, sda := none }
        bus :=
          { pin :=
              if j = 0 then { s.bus.pin with scl := .unknown }
              else if j = 1 then { s.bus.pin with scl := .input, sda := .unknown }
              else { cs := .unknown, scl := .input, sda := .input }
            trace := s.bus.trace ++
              (if j = 0 then [.rel .scl false]
              else if j = 1 then [.rel .scl true, .rel .sda false]
              else [.rel .scl true, .rel .sda true, .rel .cs false])
            ioFailed := true, answers := rest }
        results := s.results ++ [.ioError] }

/-- 90 C2, 44 section 4 (R222, R294; D17): after a TEARDOWN with the keep flag, of an instance whose line operations never
failed before it, `CS` is still driven, at its inactive level. -/
def Obligations.KeptCsStaysInactive : Prop :=
  ∀ (s t : State) (c : BusConfig), Inv s → s.cfg = some c → c.keepCs = true → s.bus.ioFailed = false →
    exec .teardown s = .next t → t.bus.pin.cs = PinState.out (!c.csActive)

/-- R253: in `Idle`, RX_PARAM, TX_COLOR and REGISTER_CALLBACKS return `NotSupported` and change nothing; nothing else returns
it. -/
def Obligations.UnsupportedOperationsReturnNotSupported : Prop :=
  (∀ (i : Instr) (s : State), i = .rxParam ∨ i = .txColor ∨ i = .registerCallbacks → s.phase = .idle →
    exec i s = .next { s with results := s.results ++ [.notSupported] }) ∧
  (∀ (i : Instr) (s t : State), exec i s = .next t → t.results = s.results ++ [.notSupported] →
    i = .rxParam ∨ i = .txColor ∨ i = .registerCallbacks)

/-! ## Results, errors, frames of the host operations, memory -/

/-- 60 section 1 (R250 to R253; the list of results is log 2): each of the six host operations that ends hands the host
exactly one result, of the kind its rule allows. -/
def Obligations.EachOperationHandsOverOneResult : Prop :=
  ∀ s t : State,
    (∀ o, exec (.create o) s = .next t →
      ∃ r, (r = .ok ∨ r = .invalidArgument ∨ r = .ioError) ∧ t.results = s.results ++ [r]) ∧
    (∀ cmd ps, exec (.transmit cmd ps) s = .next t → ∃ r, (r = .ok ∨ r = .ioError) ∧ t.results = s.results ++ [r]) ∧
    (exec .teardown s = .next t → ∃ r, (r = .ok ∨ r = .ioError) ∧ t.results = s.results ++ [r]) ∧
    (exec .rxParam s = .next t → t.results = s.results ++ [.notSupported]) ∧
    (exec .txColor s = .next t → t.results = s.results ++ [.notSupported]) ∧
    (exec .registerCallbacks s = .next t → t.results = s.results ++ [.notSupported])

/-- 60 section 4 (R257; the states of the failing line are D10): an operation that returns `IoError` has left events that all
succeeded, then the failing one, and after it nothing but the releases of a CREATE's unwinding; unless one of those released
it, the level of the failing line is not known. -/
def Obligations.ErrorsArePreciseInTheTrace : Prop :=
  ∀ (i : Instr) (s t : State), exec i s = .next t → t.results = s.results ++ [.ioError] →
    ∃ done l e after, t.bus.trace = s.bus.trace ++ done ++ [e] ++ after ∧
      (∀ x ∈ done, isFailed x = false) ∧ (e = .cfgOut l false ∨ e = .rel l false ∨ ∃ v, e = .set l v false) ∧
      (∀ x ∈ after, ∃ m ok, x = .rel m ok) ∧ ((∀ o, i ≠ .create o) → after = []) ∧
      ((∀ ok, .rel l ok ∉ after) → t.bus.pin.get l = .outX ∨ t.bus.pin.get l = .unknown)

/-- R20, R33, R40: the frames of the host operations, whatever the oracle answers: CREATE and TEARDOWN write no working
register, no request and no byte of the buffer; TRANSMIT keeps the configuration and leaves no operand behind; none of the six
touches the host's list or the platform. -/
def Obligations.HostOperationsChangeNothingElse : Prop :=
  ∀ (i : Instr) (s t : State), exec i s = .next t →
    t.pending = s.pending ∧ t.plat = s.plat ∧
    (((∃ o, i = .create o) ∨ i = .teardown) → t.work = s.work ∧ t.todo = s.todo ∧ ∀ a, memRead t.mem a = memRead s.mem a) ∧
    ((∃ cmd ps, i = .transmit cmd ps) →
      t.cfg = s.cfg ∧ t.bind = s.bind ∧ t.work = Work.empty ∧ t.todo = [] ∧ ∀ a, memRead t.mem a = none)

/-- 20 section 1 and 2 (R61, R64 with D7): the buffer space of a TRANSMIT holds the bytes of its buffer at offsets 0 to `L-1`
and none above, in canonical form, and a word that lies inside it reads little-endian. -/
def Obligations.BufferReadsAsTheRulesSay : Prop :=
  ∀ (bytes : List Byte),
    Memory.wf (loadBuffer bytes) = true ∧
    (∀ a, memRead (loadBuffer bytes) a = if h : a < bytes.length then some bytes[a] else none) ∧
    (∀ i w, i * w + w ≤ bytes.length →
      readWord (loadBuffer bytes) (i * w) w =
        some (((List.range w).map fun j => (bytes.getD (i * w + j) 0).toNat * 2 ^ (8 * j)).sum))
end

