-- ==== Sys2Proof/Laws/State.lean ====
section
/-! SUPPORT. The state's updates, field by field: what each named update leaves in each field. All true by rfl. -/

namespace Sys2Proof.Machine

variable (s : State)

/-! ## Working-register updates touch `work` only -/

@[simp] theorem State.setWord_phase (v : Word) (w : Width) : (s.setWord v w).phase = s.phase := rfl
@[simp] theorem State.setWord_cfg (v : Word) (w : Width) : (s.setWord v w).cfg = s.cfg := rfl
@[simp] theorem State.setWord_bind (v : Word) (w : Width) : (s.setWord v w).bind = s.bind := rfl
@[simp] theorem State.setWord_bus (v : Word) (w : Width) : (s.setWord v w).bus = s.bus := rfl
@[simp] theorem State.setWord_mem (v : Word) (w : Width) : (s.setWord v w).mem = s.mem := rfl
@[simp] theorem State.setWord_todo (v : Word) (w : Width) : (s.setWord v w).todo = s.todo := rfl
@[simp] theorem State.setWord_pending (v : Word) (w : Width) : (s.setWord v w).pending = s.pending := rfl
@[simp] theorem State.setWord_results (v : Word) (w : Width) : (s.setWord v w).results = s.results := rfl
@[simp] theorem State.setWord_plat (v : Word) (w : Width) : (s.setWord v w).plat = s.plat := rfl
@[simp] theorem State.setK_phase (k : BitVec 2) : (s.setK k).phase = s.phase := rfl
@[simp] theorem State.setK_cfg (k : BitVec 2) : (s.setK k).cfg = s.cfg := rfl
@[simp] theorem State.setK_bind (k : BitVec 2) : (s.setK k).bind = s.bind := rfl
@[simp] theorem State.setK_bus (k : BitVec 2) : (s.setK k).bus = s.bus := rfl
@[simp] theorem State.setK_mem (k : BitVec 2) : (s.setK k).mem = s.mem := rfl
@[simp] theorem State.setK_todo (k : BitVec 2) : (s.setK k).todo = s.todo := rfl
@[simp] theorem State.setK_pending (k : BitVec 2) : (s.setK k).pending = s.pending := rfl
@[simp] theorem State.setK_results (k : BitVec 2) : (s.setK k).results = s.results := rfl
@[simp] theorem State.setK_plat (k : BitVec 2) : (s.setK k).plat = s.plat := rfl
@[simp] theorem State.setByte_phase (d : Option Level) (b : Byte) : (s.setByte d b).phase = s.phase := rfl
@[simp] theorem State.setByte_cfg (d : Option Level) (b : Byte) : (s.setByte d b).cfg = s.cfg := rfl
@[simp] theorem State.setByte_bind (d : Option Level) (b : Byte) : (s.setByte d b).bind = s.bind := rfl
@[simp] theorem State.setByte_bus (d : Option Level) (b : Byte) : (s.setByte d b).bus = s.bus := rfl
@[simp] theorem State.setByte_mem (d : Option Level) (b : Byte) : (s.setByte d b).mem = s.mem := rfl
@[simp] theorem State.setByte_todo (d : Option Level) (b : Byte) : (s.setByte d b).todo = s.todo := rfl
@[simp] theorem State.setByte_pending (d : Option Level) (b : Byte) : (s.setByte d b).pending = s.pending := rfl
@[simp] theorem State.setByte_results (d : Option Level) (b : Byte) : (s.setByte d b).results = s.results := rfl
@[simp] theorem State.setByte_plat (d : Option Level) (b : Byte) : (s.setByte d b).plat = s.plat := rfl
@[simp] theorem State.setN_phase (n : BitVec 4) : (s.setN n).phase = s.phase := rfl
@[simp] theorem State.setN_cfg (n : BitVec 4) : (s.setN n).cfg = s.cfg := rfl
@[simp] theorem State.setN_bind (n : BitVec 4) : (s.setN n).bind = s.bind := rfl
@[simp] theorem State.setN_bus (n : BitVec 4) : (s.setN n).bus = s.bus := rfl
@[simp] theorem State.setN_mem (n : BitVec 4) : (s.setN n).mem = s.mem := rfl
@[simp] theorem State.setN_todo (n : BitVec 4) : (s.setN n).todo = s.todo := rfl
@[simp] theorem State.setN_pending (n : BitVec 4) : (s.setN n).pending = s.pending := rfl
@[simp] theorem State.setN_results (n : BitVec 4) : (s.setN n).results = s.results := rfl
@[simp] theorem State.setN_plat (n : BitVec 4) : (s.setN n).plat = s.plat := rfl
@[simp] theorem State.setS_phase (b : Byte) : (s.setS b).phase = s.phase := rfl
@[simp] theorem State.setS_cfg (b : Byte) : (s.setS b).cfg = s.cfg := rfl
@[simp] theorem State.setS_bind (b : Byte) : (s.setS b).bind = s.bind := rfl
@[simp] theorem State.setS_bus (b : Byte) : (s.setS b).bus = s.bus := rfl
@[simp] theorem State.setS_mem (b : Byte) : (s.setS b).mem = s.mem := rfl
@[simp] theorem State.setS_todo (b : Byte) : (s.setS b).todo = s.todo := rfl
@[simp] theorem State.setS_pending (b : Byte) : (s.setS b).pending = s.pending := rfl
@[simp] theorem State.setS_results (b : Byte) : (s.setS b).results = s.results := rfl
@[simp] theorem State.setS_plat (b : Byte) : (s.setS b).plat = s.plat := rfl
@[simp] theorem State.setF_phase (f : Nat) : (s.setF f).phase = s.phase := rfl
@[simp] theorem State.setF_cfg (f : Nat) : (s.setF f).cfg = s.cfg := rfl
@[simp] theorem State.setF_bind (f : Nat) : (s.setF f).bind = s.bind := rfl
@[simp] theorem State.setF_bus (f : Nat) : (s.setF f).bus = s.bus := rfl
@[simp] theorem State.setF_mem (f : Nat) : (s.setF f).mem = s.mem := rfl
@[simp] theorem State.setF_todo (f : Nat) : (s.setF f).todo = s.todo := rfl
@[simp] theorem State.setF_pending (f : Nat) : (s.setF f).pending = s.pending := rfl
@[simp] theorem State.setF_results (f : Nat) : (s.setF f).results = s.results := rfl
@[simp] theorem State.setF_plat (f : Nat) : (s.setF f).plat = s.plat := rfl

@[simp] theorem State.setWord_work (v : Word) (w : Width) :
    (s.setWord v w).work = { s.work with v := some v, w := some w } := rfl
@[simp] theorem State.setK_work (k : BitVec 2) : (s.setK k).work = { s.work with k := some k } := rfl
@[simp] theorem State.setByte_work (d : Option Level) (b : Byte) :
    (s.setByte d b).work = { s.work with d := some d, s := some b } := rfl
@[simp] theorem State.setN_work (n : BitVec 4) : (s.setN n).work = { s.work with n := some n } := rfl
@[simp] theorem State.setS_work (b : Byte) : (s.setS b).work = { s.work with s := some b } := rfl
@[simp] theorem State.setF_work (f : Nat) : (s.setF f).work = { s.work with f := some f } := rfl

/-! ## Naming the next frame touches `work` only -/

@[simp] theorem State.setIndex_phase (r : FrameReq) : (s.setIndex r).phase = s.phase := by cases r <;> rfl
@[simp] theorem State.setIndex_cfg (r : FrameReq) : (s.setIndex r).cfg = s.cfg := by cases r <;> rfl
@[simp] theorem State.setIndex_bind (r : FrameReq) : (s.setIndex r).bind = s.bind := by cases r <;> rfl
@[simp] theorem State.setIndex_bus (r : FrameReq) : (s.setIndex r).bus = s.bus := by cases r <;> rfl
@[simp] theorem State.setIndex_mem (r : FrameReq) : (s.setIndex r).mem = s.mem := by cases r <;> rfl
@[simp] theorem State.setIndex_todo (r : FrameReq) : (s.setIndex r).todo = s.todo := by cases r <;> rfl
@[simp] theorem State.setIndex_pending (r : FrameReq) : (s.setIndex r).pending = s.pending := by cases r <;> rfl
@[simp] theorem State.setIndex_results (r : FrameReq) : (s.setIndex r).results = s.results := by cases r <;> rfl
@[simp] theorem State.setIndex_plat (r : FrameReq) : (s.setIndex r).plat = s.plat := by cases r <;> rfl

/-! ## Results -/

@[simp] theorem reply_phase (r : Result) : (reply r s).phase = s.phase := rfl
@[simp] theorem reply_cfg (r : Result) : (reply r s).cfg = s.cfg := rfl
@[simp] theorem reply_bind (r : Result) : (reply r s).bind = s.bind := rfl
@[simp] theorem reply_bus (r : Result) : (reply r s).bus = s.bus := rfl
@[simp] theorem reply_mem (r : Result) : (reply r s).mem = s.mem := rfl
@[simp] theorem reply_todo (r : Result) : (reply r s).todo = s.todo := rfl
@[simp] theorem reply_pending (r : Result) : (reply r s).pending = s.pending := rfl
@[simp] theorem reply_results (r : Result) : (reply r s).results = s.results ++ [r] := rfl
@[simp] theorem reply_plat (r : Result) : (reply r s).plat = s.plat := rfl
@[simp] theorem reply_work (r : Result) : (reply r s).work = s.work := rfl

/-! ## Giving up the configuration -/

@[simp] theorem dropInstance_cfg : (dropInstance s).cfg = none := rfl
@[simp] theorem dropInstance_bind : (dropInstance s).bind = unbound := rfl
@[simp] theorem dropInstance_phase : (dropInstance s).phase = s.phase := rfl
@[simp] theorem dropInstance_bus : (dropInstance s).bus = s.bus := rfl
@[simp] theorem dropInstance_mem : (dropInstance s).mem = s.mem := rfl
@[simp] theorem dropInstance_todo : (dropInstance s).todo = s.todo := rfl
@[simp] theorem dropInstance_pending : (dropInstance s).pending = s.pending := rfl
@[simp] theorem dropInstance_results : (dropInstance s).results = s.results := rfl
@[simp] theorem dropInstance_plat : (dropInstance s).plat = s.plat := rfl
@[simp] theorem dropInstance_work : (dropInstance s).work = s.work := rfl

/-! ## The end of a TRANSMIT -/

@[simp] theorem endTransmit_phase : (endTransmit s).phase = .idle := rfl
@[simp] theorem endTransmit_work : (endTransmit s).work = Work.empty := rfl
@[simp] theorem endTransmit_mem : (endTransmit s).mem = [] := rfl
@[simp] theorem endTransmit_todo : (endTransmit s).todo = [] := rfl
@[simp] theorem endTransmit_cfg : (endTransmit s).cfg = s.cfg := rfl
@[simp] theorem endTransmit_bind : (endTransmit s).bind = s.bind := rfl
@[simp] theorem endTransmit_bus : (endTransmit s).bus = s.bus := rfl
@[simp] theorem endTransmit_pending : (endTransmit s).pending = s.pending := rfl
@[simp] theorem endTransmit_results : (endTransmit s).results = s.results := rfl
@[simp] theorem endTransmit_plat : (endTransmit s).plat = s.plat := rfl

/-! ## Lines -/

@[simp] theorem lines_get_set_same {α : Type} (ls : Lines α) (l : Line) (a : α) : (ls.set l a).get l = a := by cases l <;> rfl

theorem lines_get_set_other {α : Type} (ls : Lines α) {l m : Line} (a : α) (h : m ≠ l) : (ls.set l a).get m = ls.get m := by
  cases l <;> cases m <;> first | rfl | exact absurd rfl h

end Sys2Proof.Machine
end

