-- ==== Sys2Proof/Laws/Memory.lean ====
section
/-! SUPPORT. The buffer space: its canonical form is kept by every operation on it, and reading it gives the bytes of the
buffer; words are read little-endian. -/

namespace Sys2Proof.Machine

/-- The empty buffer space is in canonical form. -/
theorem memory_wf_nil : Memory.wf [] = true := by decide

/-- The buffer of a TRANSMIT is in canonical form. -/
theorem memory_wf_loadBuffer (bytes : List Byte) : Memory.wf (loadBuffer bytes) = true := by
  have h : (loadBuffer bytes).map Prod.fst = List.range (loadBuffer bytes).length := by
    simp only [loadBuffer, List.map_map, List.length_map, List.length_zipIdx, List.range_eq_range']
    exact List.zipIdx_map_snd 0 bytes
  simp [Memory.wf, h]

@[simp] theorem loadBuffer_length (bytes : List Byte) : (loadBuffer bytes).length = bytes.length := by
  simp [loadBuffer]

/-- The canonical form says that the offsets rise strictly. -/
theorem memory_wf_rising {m : Memory} (h : Memory.wf m = true) : (m.map Prod.fst).Pairwise (· < ·) := by
  simp only [Memory.wf, decide_eq_true_eq] at h
  rw [h]
  exact List.pairwise_lt_range

theorem lookup_zipIdx (bytes : List Byte) (n a : Nat) :
    (bytes.zipIdx n |>.map fun p => (p.2, p.1)).lookup a = if a < n then none else bytes[a - n]? := by
  induction bytes generalizing n with
  | nil => simp
  | cons b bs ih =>
    simp only [List.zipIdx_cons, List.map_cons, List.lookup_cons, ih]
    by_cases h : a = n
    · subst h; simp
    · have hb : (a == n) = false := by simpa using h
      rw [hb]
      by_cases hlt : a < n
      · simp [hlt, show a < n + 1 by omega]
      · have : a - n = (a - (n + 1)) + 1 := by omega
        simp [hlt, show ¬ a < n + 1 by omega, this]

/-- `MemRead` of the buffer of a TRANSMIT (R61). -/
theorem memRead_loadBuffer (bytes : List Byte) (a : Nat) : memRead (loadBuffer bytes) a = bytes[a]? := by
  simp [memRead, loadBuffer, lookup_zipIdx bytes 0 a]

/-- A canonical buffer space is the buffer of its bytes. -/
theorem eq_loadBuffer_of_wf {m : Memory} (h : Memory.wf m = true) : m = loadBuffer (m.map Prod.snd) := by
  simp only [Memory.wf, decide_eq_true_eq] at h
  apply List.ext_getElem (by simp)
  intro i h1 h2
  have hf : m[i].1 = i := by
    have : (m.map Prod.fst)[i]'(by simpa using h1) = i := by simp [h]
    simpa using this
  apply Prod.ext <;> simp [loadBuffer, hf]

/-- The little-endian sum of the bytes from an offset on (R64). -/
def sumBytes (bytes : List Byte) (a n : Nat) : Nat :=
  ((List.range n).map fun j => (bytes.getD (a + j) 0).toNat * 2 ^ (8 * j)).sum

theorem sumBytes_succ (bytes : List Byte) (a n : Nat) :
    sumBytes bytes a (n + 1) = (bytes.getD a 0).toNat + 256 * sumBytes bytes (a + 1) n := by
  simp only [sumBytes, List.range_succ_eq_map, List.map_cons, List.sum_cons, List.map_map, Nat.add_zero, Nat.mul_zero, pow_zero,
    Nat.mul_one]
  congr 1
  rw [← List.sum_map_mul_left]
  congr 1
  apply List.map_congr_left
  intro j _
  simp only [Function.comp]
  rw [show a + (j + 1) = a + 1 + j by omega, show 8 * (j + 1) = 8 + 8 * j by omega, pow_add]
  ring

theorem readWord_loadBuffer (bytes : List Byte) (a n : Nat) (h : a + n ≤ bytes.length) :
    readWord (loadBuffer bytes) a n = some (sumBytes bytes a n) := by
  induction n generalizing a with
  | zero => simp [readWord, sumBytes]
  | succ n ih =>
    have ha : bytes[a]? = some (bytes.getD a 0) := by
      rw [List.getD_eq_getElem?_getD, List.getElem?_eq_getElem (by omega)]; rfl
    simp only [readWord, memRead_loadBuffer, ih (a + 1) (by omega), ha, sumBytes_succ]

theorem sumBytes_lt (bytes : List Byte) (a n : Nat) : sumBytes bytes a n < 2 ^ (8 * n) := by
  induction n generalizing a with
  | zero => simp [sumBytes]
  | succ n ih =>
    rw [sumBytes_succ]
    have h1 := (bytes.getD a 0).isLt
    have h2 := ih (a + 1)
    rw [show 8 * (n + 1) = 8 * n + 8 by omega, pow_add]
    omega

end Sys2Proof.Machine
end

