-- ==== Sys2Proof/Laws/Perform.lean ====
section
/-! SUPPORT. What a list of events does when it is performed against the oracle: the one place where the success and the
failure of line operations are worked out. Every operation of the sequencer is then shown to perform a waveform. -/

namespace Sys2Proof.Machine

/-! ## Flows -/

@[simp] theorem Flow.andThen_ok {σ : Type} (s : σ) (g : σ → Flow σ) : (Flow.ok s).andThen g = g s := rfl
@[simp] theorem Flow.andThen_ioError {σ : Type} (s : σ) (g : σ → Flow σ) : (Flow.ioError s).andThen g = .ioError s := rfl

theorem Flow.andThen_assoc {σ : Type} (f : Flow σ) (g h : σ → Flow σ) :
    (f.andThen g).andThen h = f.andThen fun s => (g s).andThen h := by
  cases f <;> rfl

@[simp] theorem Flow.andThen_ok_right {σ : Type} (f : Flow σ) : f.andThen .ok = f := by
  cases f <;> rfl

/-! ## Performing events -/

/-- Perform the operations of a list of events, asking the oracle for each line operation. -/
def perform : List Event → Bus → Flow Bus
  | [], b => .ok b
  | .cfgOut l _ :: es, b => (lineOp (.cfgOut l) b).andThen (perform es)
  | .set l v _ :: es, b => (lineOp (.set l v) b).andThen (perform es)
  | .rel l _ :: es, b => (lineOp (.rel l) b).andThen (perform es)
  | .dly us m :: es, b => perform es { b with trace := b.trace ++ [.dly us m] }

theorem perform_append (es fs : List Event) (b : Bus) :
    perform (es ++ fs) b = (perform es b).andThen (perform fs) := by
  induction es generalizing b with
  | nil => rfl
  | cons e es ih =>
    have step : ∀ op : LineOp, (lineOp op b).andThen (perform (es ++ fs)) =
        ((lineOp op b).andThen (perform es)).andThen (perform fs) := fun op => by
      rw [Flow.andThen_assoc]
      congr 1
      funext b'
      exact ih b'
    cases e with
    | cfgOut l ok => exact step _
    | set l v ok => exact step _
    | rel l ok => exact step _
    | dly us m => exact ih _

/-- The event of a line operation with a given outcome changes the lines as the operation does. -/
theorem afterLineOp_eq (op : LineOp) (ok : Bool) (b : Bus) :
    afterLineOp op ok b = busAfter b [eventOf ok op] b.answers.tail := by
  cases op <;> cases ok <;> simp [afterLineOp, busAfter, pinsAfter, pinsAfterEvent, eventOf, lineOf, isFailed]

theorem busAfter_busAfter (b : Bus) (es fs : List Event) (r r' : List Bool) :
    busAfter (busAfter b es r) fs r' = busAfter b (es ++ fs) r' := by
  simp [busAfter, pinsAfter, List.foldl_append, Bool.or_assoc]

theorem busAfter_nil (b : Bus) : busAfter b [] b.answers = b := by
  simp [busAfter, pinsAfter]

theorem lineOp_cases (op : LineOp) (b : Bus) :
    (askOracle b op = true ∧ lineOp op b = .ok (busAfter b [eventOf true op] b.answers.tail)) ∨
    (askOracle b op = false ∧ lineOp op b = .ioError (busAfter b [eventOf false op] b.answers.tail)) := by
  cases h : askOracle b op <;> simp [lineOp, h, afterLineOp_eq]

theorem lineOp_true (op : LineOp) (b : Bus) {rest : List Bool} (h : b.answers = true :: rest) :
    lineOp op b = .ok (busAfter b [eventOf true op] rest) := by
  simp [lineOp, askOracle, h, afterLineOp_eq]

theorem lineOp_false (op : LineOp) (b : Bus) {rest : List Bool} (h : b.answers = false :: rest) :
    lineOp op b = .ioError (busAfter b [eventOf false op] rest) := by
  simp [lineOp, askOracle, h, afterLineOp_eq]

/-- The line operation of an event. -/
def opOf : Event → Option LineOp
  | .cfgOut l _ => some (.cfgOut l)
  | .set l v _ => some (.set l v)
  | .rel l _ => some (.rel l)
  | .dly _ _ => none

theorem perform_cons_op {e : Event} {op : LineOp} (h : opOf e = some op) (es : List Event) (b : Bus) :
    perform (e :: es) b = (lineOp op b).andThen (perform es) := by
  cases e <;> cases h <;> rfl

theorem eventOf_true {e : Event} {op : LineOp} (h : opOf e = some op) (he : isFailed e = false) : eventOf true op = e := by
  cases e <;> cases h <;> simp_all [eventOf, isFailed]

theorem eventOf_false {e : Event} {op : LineOp} (h : opOf e = some op) : eventOf false op = failedEvent e := by
  cases e <;> cases h <;> rfl

theorem isLineEvent_iff_opOf (e : Event) : isLineEvent e = (opOf e).isSome := by cases e <;> rfl

theorem perform_cons_dly (us : Nat) (m : DelayMode) (es : List Event) (b : Bus) :
    perform (.dly us m :: es) b = perform es (busAfter b [.dly us m] b.answers) := by
  simp [perform, busAfter, pinsAfter, pinsAfterEvent, isFailed]

theorem lineCount_cons (e : Event) (es : List Event) :
    lineCount (e :: es) = (if isLineEvent e then 1 else 0) + lineCount es := by
  simp only [lineCount, List.countP_cons]; split <;> omega

@[simp] theorem lineCount_nil : lineCount [] = 0 := rfl

theorem lineCount_append (es fs : List Event) : lineCount (es ++ fs) = lineCount es + lineCount fs := by
  simp [lineCount]

/-- Every operation succeeds. -/
theorem perform_ok {es : List Event} (hes : ∀ e ∈ es, isFailed e = false) {b : Bus} {rest : List Bool}
    (h : b.answers = List.replicate (lineCount es) true ++ rest) :
    perform es b = .ok (busAfter b es rest) := by
  induction es generalizing b with
  | nil => simp at h; subst h; simp [perform, busAfter_nil]
  | cons e es ih =>
    have hes' := fun x hx => hes x (List.mem_cons_of_mem _ hx)
    rcases ho : opOf e with _ | op
    · obtain ⟨us, m, rfl⟩ : ∃ us m, e = .dly us m := by cases e <;> simp_all [opOf]
      rw [perform_cons_dly, ih hes' (b := busAfter b [.dly us m] b.answers) (by simpa [busAfter, lineCount_cons, isLineEvent] using h),
        busAfter_busAfter]
      rfl
    · have hl : isLineEvent e = true := by simp [isLineEvent_iff_opOf, ho]
      rw [lineCount_cons, hl, if_pos rfl, Nat.add_comm, List.replicate_succ, List.cons_append] at h
      rw [perform_cons_op ho, lineOp_true op b h, Flow.andThen_ok, ih hes' rfl, busAfter_busAfter,
        eventOf_true ho (hes e (by simp))]
      rfl

/-- The operation number `k` fails, all before it succeed. -/
theorem perform_fail {es : List Event} (hes : ∀ e ∈ es, isFailed e = false) {k : Nat} (hk : k < lineCount es) {b : Bus}
    {rest : List Bool} (h : b.answers = List.replicate k true ++ false :: rest) :
    perform es b = .ioError (busAfter b (failAt k es) rest) := by
  induction es generalizing b k with
  | nil => simp at hk
  | cons e es ih =>
    have hes' := fun x hx => hes x (List.mem_cons_of_mem _ hx)
    rcases ho : opOf e with _ | op
    · obtain ⟨us, m, rfl⟩ : ∃ us m, e = .dly us m := by cases e <;> simp_all [opOf]
      rw [perform_cons_dly, ih hes' (k := k) (by simpa [lineCount_cons, isLineEvent] using hk)
        (b := busAfter b [.dly us m] b.answers) (by simpa [busAfter] using h), busAfter_busAfter]
      simp [failAt, isLineEvent]
    · have hl : isLineEvent e = true := by simp [isLineEvent_iff_opOf, ho]
      cases k with
      | zero =>
        rw [perform_cons_op ho, lineOp_false op b (by simpa using h), Flow.andThen_ioError, eventOf_false ho]
        simp [failAt, hl]
      | succ k =>
        rw [List.replicate_succ, List.cons_append] at h
        rw [perform_cons_op ho, lineOp_true op b h, Flow.andThen_ok,
          ih hes' (k := k) (by rw [lineCount_cons, hl] at hk; simp at hk; omega) rfl, busAfter_busAfter,
          eventOf_true ho (hes e (by simp))]
        simp [failAt, hl]

/-- Whatever the oracle answers: all events happened, or they were cut short by the failure of one line operation. -/
theorem perform_cases {es : List Event} (hes : ∀ e ∈ es, isFailed e = false) (b : Bus) :
    (∃ rest, perform es b = .ok (busAfter b es rest)) ∨
    (∃ k rest, k < lineCount es ∧ perform es b = .ioError (busAfter b (failAt k es) rest)) := by
  induction es generalizing b with
  | nil => exact .inl ⟨b.answers, by simp [perform, busAfter_nil]⟩
  | cons e es ih =>
    have hes' := fun x hx => hes x (List.mem_cons_of_mem _ hx)
    rcases ho : opOf e with _ | op
    · obtain ⟨us, m, rfl⟩ : ∃ us m, e = .dly us m := by cases e <;> simp_all [opOf]
      rw [perform_cons_dly]
      rcases ih hes' (busAfter b [.dly us m] b.answers) with ⟨r, hr⟩ | ⟨k, r, hk, hr⟩
      · exact .inl ⟨r, by rw [hr, busAfter_busAfter]; rfl⟩
      · refine .inr ⟨k, r, by simpa [lineCount_cons, isLineEvent] using hk, ?_⟩
        rw [hr, busAfter_busAfter]
        simp [failAt, isLineEvent]
    · have hl : isLineEvent e = true := by simp [isLineEvent_iff_opOf, ho]
      rw [perform_cons_op ho]
      rcases lineOp_cases op b with ⟨-, h⟩ | ⟨-, h⟩
      · rw [h, Flow.andThen_ok, eventOf_true ho (hes e (by simp))]
        rcases ih hes' (busAfter b [e] b.answers.tail) with ⟨r, hr⟩ | ⟨k, r, hk, hr⟩
        · exact .inl ⟨r, by rw [hr, busAfter_busAfter]; rfl⟩
        · refine .inr ⟨k + 1, r, by rw [lineCount_cons, hl]; simp; omega, ?_⟩
          rw [hr, busAfter_busAfter]
          simp [failAt, hl]
      · refine .inr ⟨0, b.answers.tail, by rw [lineCount_cons, hl]; simp, ?_⟩
        rw [h, Flow.andThen_ioError, eventOf_false ho]
        simp [failAt, hl]

/-! ## Waveforms cut short -/

theorem failAt_append_left {es : List Event} {k : Nat} (h : k < lineCount es) (fs : List Event) :
    failAt k (es ++ fs) = failAt k es := by
  induction es generalizing k with
  | nil => simp at h
  | cons e es ih =>
    rw [lineCount_cons] at h
    rw [List.cons_append]
    simp only [failAt]
    split
    · rename_i hl
      cases k with
      | zero => rfl
      | succ k => simp [ih (k := k) (by simp [hl] at h; omega)]
    · rename_i hl
      rw [ih (by simpa [hl] using h)]

theorem failAt_append_right {es : List Event} {k : Nat} (fs : List Event) :
    failAt (lineCount es + k) (es ++ fs) = es ++ failAt k fs := by
  induction es with
  | nil => simp
  | cons e es ih =>
    rw [lineCount_cons, List.cons_append]
    simp only [failAt]
    split
    · rename_i hl
      have : 1 + lineCount es + k = (lineCount es + k) + 1 := by omega
      simp [this, ih]
    · rename_i hl
      simp [ih]

/-- A waveform cut short ends in a failed operation. -/
theorem failAt_any_failed {es : List Event} {k : Nat} (h : k < lineCount es) : (failAt k es).any isFailed = true := by
  induction es generalizing k with
  | nil => simp at h
  | cons e es ih =>
    rw [lineCount_cons] at h
    simp only [failAt]
    split
    · rename_i hl
      cases k with
      | zero => cases e <;> simp_all [failedEvent, isFailed, isLineEvent]
      | succ k => simp [ih (k := k) (by simp [hl] at h; omega)]
    · rename_i hl
      simp [ih (by simpa [hl] using h)]

/-- A waveform of successful events cut short: the events before one line operation, and that operation failed (R257). -/
theorem failAt_split {es : List Event} (hes : ∀ e ∈ es, isFailed e = false) : ∀ {k : Nat}, k < lineCount es →
    ∃ done e post, es = done ++ e :: post ∧ failAt k es = done ++ [failedEvent e] ∧ isLineEvent e = true := by
  induction es with
  | nil => intro k h; simp at h
  | cons e es ih =>
    intro k h
    rw [lineCount_cons] at h
    have ih' := @ih (fun x hx => hes x (by simp [hx]))
    by_cases hl : isLineEvent e = true
    · rw [if_pos hl] at h
      cases k with
      | zero => exact ⟨[], e, es, rfl, by simp [failAt, hl], hl⟩
      | succ k =>
        obtain ⟨d, e0, p, h1, h2, h3⟩ := ih' (k := k) (by omega)
        exact ⟨e :: d, e0, p, by simp [h1], by simp [failAt, hl, h2], h3⟩
    · rw [if_neg hl] at h
      obtain ⟨d, e0, p, h1, h2, h3⟩ := ih' (k := k) (by omega)
      exact ⟨e :: d, e0, p, by simp [h1], by simp [failAt, hl, h2], h3⟩

theorem pinsAfter_append (p : Lines PinState) (es fs : List Event) : pinsAfter p (es ++ fs) = pinsAfter (pinsAfter p es) fs := by
  simp [pinsAfter]

end Sys2Proof.Machine
end

