-- ==== Sys2Proof/Laws/Tracks.lean ====
section
/-! SUPPORT. Each procedure of the sequencer performs a waveform: SEND_BIT the five events of a bit (R108), SEND_BYTE the bits
of a byte (R173), SEND_FRAME the events of a frame (R109). -/

namespace Sys2Proof.Machine

/-- The procedure performs the events of `es`; when it ends, the working registers are `g` of what they were, and it touches
nothing else; when it fails, it has touched nothing but the lines and the working registers. -/
def Tracks (f : State → Flow State) (es : List Event) (g : Work → Work) : Prop :=
  ∀ s : State,
    (∀ b, perform es s.bus = .ok b → f s = .ok { s with bus := b, work := g s.work }) ∧
    (∀ b, perform es s.bus = .ioError b → ∃ r, f s = .ioError { s with bus := b, work := r })

theorem Tracks.andThen {f h : State → Flow State} {es fs : List Event} {g k : Work → Work} (hf : Tracks f es g)
    (hh : Tracks h fs k) : Tracks (fun s => (f s).andThen h) (es ++ fs) (fun r => k (g r)) := by
  intro s
  show (∀ b, _ → (f s).andThen h = _) ∧ (∀ b, _ → ∃ r, (f s).andThen h = _)
  rw [perform_append]
  rcases he : perform es s.bus with b | b
  · rw [Flow.andThen_ok, (hf s).1 b he]
    obtain ⟨h1, h2⟩ := hh { s with bus := b, work := g s.work }
    exact ⟨fun b' hb' => by simpa using h1 b' hb', fun b' hb' => by simpa using h2 b' hb'⟩
  · rw [Flow.andThen_ioError]
    refine ⟨by simp, fun b' hb' => ?_⟩
    obtain ⟨r, hr⟩ := (hf s).2 b he
    cases hb'
    exact ⟨r, by rw [hr, Flow.andThen_ioError]⟩

theorem Tracks.work_first {f : State → Flow State} {es : List Event} {g : Work → Work} (hf : Tracks f es g) (u : Work → Work) :
    Tracks (fun s => f { s with work := u s.work }) es (fun r => g (u r)) := by
  intro s
  exact hf { s with work := u s.work }

theorem tracks_nil : Tracks .ok [] id := by
  intro s
  refine ⟨fun b hb => ?_, fun b hb => ?_⟩ <;> cases hb
  rfl

theorem tracks_onBus {f : Bus → Flow Bus} {es : List Event} (h : ∀ b, f b = perform es b) : Tracks (onBus f) es id := by
  intro s
  refine ⟨fun b hb => ?_, fun b hb => ⟨s.work, ?_⟩⟩ <;> simp [onBus, h, hb]

/-! ## Procedures on the lines -/

/-- A delay performs its event. -/
theorem perform_delay (c : BusConfig) (es : List Event) (b : Bus) :
    perform (delayEvent c.halfPeriodUs :: es) b = perform es (delay c b) := rfl

theorem perform_set (l : Line) (v ok : Bool) (es : List Event) (b : Bus) :
    perform (.set l v ok :: es) b = (lineSet l v b).andThen (perform es) := rfl

theorem perform_rel (l : Line) (ok : Bool) (es : List Event) (b : Bus) :
    perform (.rel l ok :: es) b = (lineRelease l b).andThen (perform es) := rfl

theorem perform_cfgOut (l : Line) (ok : Bool) (es : List Event) (b : Bus) :
    perform (.cfgOut l ok :: es) b = (lineCfgOut l b).andThen (perform es) := rfl

theorem perform_nil (b : Bus) : perform [] b = .ok b := rfl

theorem sendBit_performs (c : BusConfig) (x : Level) (b : Bus) : sendBit c x b = perform (bitEvents c x) b := rfl

theorem openFrame_performs (c : BusConfig) (b : Bus) : openFrame c b = perform (openEvents c) b := by
  simp only [openFrame, openEvents, perform_set]
  congr 1
  funext b'
  exact (Flow.andThen_ok_right _).symm

theorem closeFrame_performs (c : BusConfig) (b : Bus) : closeFrame c b = perform (closeEvents c) b := rfl

theorem releaseLines_performs (keepCs : Bool) (b : Bus) : releaseLines keepCs b = perform (teardownEvents keepCs) b := by
  cases keepCs
  · simp only [releaseLines, teardownEvents, Bool.false_eq_true, if_false, List.cons_append, List.nil_append, perform_rel]
    congr 1; funext b1; congr 1; funext b2
    exact (Flow.andThen_ok_right _).symm
  · rfl

/-! ## SEND_BYTE -/

/-- The bits the shift loop sends (R172). -/
def shiftedBits (lsbFirst : Bool) (b : Byte) : Nat → List Level
  | 0 => []
  | n + 1 => shiftBit lsbFirst b :: shiftedBits lsbFirst (shiftByte lsbFirst b) n

/-- The shift register after `n` bits. -/
def shiftedByte (lsbFirst : Bool) (b : Byte) : Nat → Byte
  | 0 => b
  | n + 1 => shiftedByte lsbFirst (shiftByte lsbFirst b) n

/-- The eight shifted bits are the byte's bits in the frame's order (R173). -/
theorem shiftedBits_eight (lsbFirst : Bool) (b : Byte) : shiftedBits lsbFirst b 8 = byteBits lsbFirst b := by
  cases lsbFirst <;> simp [shiftedBits, shiftBit, shiftByte, byteBits]

/-- Eight shifts empty the register. -/
theorem shiftedByte_eight (lsbFirst : Bool) (b : Byte) : shiftedByte lsbFirst b 8 = 0#8 := by
  cases lsbFirst <;>
    simp only [shiftedByte, shiftByte, if_true, if_false, Bool.false_eq_true] <;> ext i hi <;> simp

theorem sendShifted_tracks (c : BusConfig) (n : Nat) : ∀ (b : Byte) (pos : Nat),
    Tracks (sendShifted c b pos n) ((shiftedBits c.lsbFirst b n).flatMap (bitEvents c))
      (fun r => if n = 0 then r else
        { r with n := some (BitVec.ofNat 4 (pos + n - 1)), s := some (shiftedByte c.lsbFirst b n) }) := by
  induction n with
  | zero => exact fun b pos => tracks_nil
  | succ n ih =>
    intro b pos
    have h1 : Tracks (fun s : State => onBus (sendBit c (shiftBit c.lsbFirst b)) (s.setN (BitVec.ofNat 4 pos)))
        (bitEvents c (shiftBit c.lsbFirst b)) (fun r => { r with n := some (BitVec.ofNat 4 pos) }) :=
      (tracks_onBus (sendBit_performs c (shiftBit c.lsbFirst b))).work_first (fun r => { r with n := some (BitVec.ofNat 4 pos) })
    have h2 := (ih (shiftByte c.lsbFirst b) (pos + 1)).work_first
      (fun r => { r with s := some (shiftByte c.lsbFirst b) })
    have h := h1.andThen h2
    have hw : ∀ r : Work, (if n = 0 then { r with n := some (BitVec.ofNat 4 pos), s := some (shiftByte c.lsbFirst b) } else
          { r with n := some (BitVec.ofNat 4 (pos + 1 + n - 1)), s := some (shiftedByte c.lsbFirst (shiftByte c.lsbFirst b) n) }) =
        { r with n := some (BitVec.ofNat 4 (pos + (n + 1) - 1)), s := some (shiftedByte c.lsbFirst b (n + 1)) } := by
      intro r
      split
      · subst n; rfl
      · have : pos + 1 + n - 1 = pos + (n + 1) - 1 := by omega
        rw [this]; rfl
    intro s
    have := h s
    simp only [Nat.succ_ne_zero, if_false, ← hw]
    refine ⟨fun b' hb' => ?_, fun b' hb' => this.2 b' hb'⟩
    have := this.1 b' hb'
    refine Eq.trans this ?_
    split <;> rfl

/-- The bits of a byte with its discriminator (R172, R173). -/
def byteWithDc (lsbFirst : Bool) (d : Option Level) (b : Byte) : List Level := d.toList ++ byteBits lsbFirst b

/-- The working registers a SEND_BYTE leaves (R172). -/
def workAfterByte (d : Option Level) (r : Work) : Work :=
  { r with s := some 0#8, n := some (if d = none then 7#4 else 8#4), d := some d }

theorem sendByte_tracks (c : BusConfig) (d : Option Level) (b : Byte) :
    Tracks (sendByte c d b) ((byteWithDc c.lsbFirst d b).flatMap (bitEvents c)) (workAfterByte d) := by
  cases d with
  | none =>
    have h := ((sendShifted_tracks c 8 b 0).work_first (fun r => { r with d := some none, s := some b }))
    rw [shiftedBits_eight] at h
    simp only [shiftedByte_eight] at h
    exact h
  | some x =>
    have h1 : Tracks (fun s : State => onBus (sendBit c x) (s.setN 0#4)) (bitEvents c x)
        (fun r => { r with n := some 0#4 }) :=
      (tracks_onBus (sendBit_performs c x)).work_first (fun r => { r with n := some 0#4 })
    have h := ((h1.andThen (sendShifted_tracks c 8 b 1)).work_first (fun r => { r with d := some (some x), s := some b }))
    rw [shiftedBits_eight] at h
    simp only [shiftedByte_eight] at h
    exact h

/-! ## SEND_FRAME -/

/-- The bits of the low `n` bytes, the discriminator in front of the byte of `K = 0` (R192 step 4). -/
def bytesWithDc (lsbFirst : Bool) (d : Option Level) (w : Width) (v : Word) : Nat → List Level
  | 0 => []
  | n + 1 => byteWithDc lsbFirst (if w.bytes - (n + 1) = 0 then d else none) (byteOf v n) ++ bytesWithDc lsbFirst d w v n

theorem bytesWithDc_below {lsbFirst : Bool} {d : Option Level} {w : Width} {v : Word} {n : Nat} (h : n < w.bytes) :
    bytesWithDc lsbFirst d w v n = bytesBits lsbFirst v n := by
  induction n with
  | zero => rfl
  | succ n ih =>
    have : w.bytes - (n + 1) ≠ 0 := by omega
    simp [bytesWithDc, bytesBits, byteWithDc, this, ih (by omega)]

/-- The discriminator stands once, first in the frame (R194). -/
theorem bytesWithDc_all (lsbFirst : Bool) (d : Option Level) (w : Width) (v : Word) :
    bytesWithDc lsbFirst d w v w.bytes = d.toList ++ bytesBits lsbFirst v w.bytes := by
  obtain ⟨n, hn⟩ : ∃ n, w.bytes = n + 1 := by cases w <;> exact ⟨_, rfl⟩
  rw [hn]
  simp [bytesWithDc, bytesBits, byteWithDc, hn, bytesWithDc_below (show n < w.bytes by omega)]

/-- The working registers after the byte loop. -/
def workAfterBytes (d : Option Level) (w : Width) : Nat → Work → Work
  | 0, r => r
  | n + 1, r =>
    workAfterBytes d w n (workAfterByte (if w.bytes - (n + 1) = 0 then d else none)
      { r with k := some (BitVec.ofNat 2 (w.bytes - (n + 1))) })

theorem sendBytes_tracks (c : BusConfig) (d : Option Level) (w : Width) (v : Word) (n : Nat) :
    Tracks (sendBytes c d w v n) ((bytesWithDc c.lsbFirst d w v n).flatMap (bitEvents c)) (workAfterBytes d w n) := by
  induction n with
  | zero => exact tracks_nil
  | succ n ih =>
    have h := ((sendByte_tracks c (if w.bytes - (n + 1) = 0 then d else none) (byteOf v n)).work_first
      (fun r => { r with k := some (BitVec.ofNat 2 (w.bytes - (n + 1))) })).andThen ih
    rw [← List.flatMap_append] at h
    exact h

theorem byteOf_truncate {w : Width} {n : Nat} (h : n < w.bytes) (v : Word) : byteOf (truncate w v) n = byteOf v n := by
  ext i hi
  have h4 : w.bytes ≤ 4 := by cases w <;> decide
  simp only [byteOf, truncate, BitVec.getElem_extractLsb', BitVec.getLsbD_ofNat, Nat.testBit_mod_two_pow, BitVec.testBit_toNat]
  have : 8 * n + i < 8 * w.bytes := by omega
  simp [this]; omega

theorem bytesBits_truncate {w : Width} (lsbFirst : Bool) (v : Word) {n : Nat} (h : n ≤ w.bytes) :
    bytesBits lsbFirst (truncate w v) n = bytesBits lsbFirst v n := by
  induction n with
  | zero => rfl
  | succ n ih => simp [bytesBits, byteOf_truncate (show n < w.bytes by omega), ih (by omega)]

/-- Only the low `8*W` bits of a value enter its frame (R105). -/
theorem frameBits_truncate (k : FrameKind) (p : DcPolicy) (w : Width) (lsbFirst : Bool) (v : Word) :
    frameBits k p w lsbFirst (truncate w v) = frameBits k p w lsbFirst v := by
  simp [frameBits, bytesBits_truncate]

theorem frameEvents_truncate (c : BusConfig) (k : FrameKind) (v : Word) :
    frameEvents c k (truncate (c.bytes k) v) = frameEvents c k v := by
  simp [frameEvents, BusConfig.frameBits, frameBits_truncate]

theorem workAfterFrame_eq (c : BusConfig) (k : FrameKind) (v : Word) (r : Work) :
    workAfterBytes (c.dc k) (c.bytes k) (c.bytes k).bytes
      { r with v := some (truncate (c.bytes k) v), w := some (c.bytes k) } = workAfterFrame c k v r := by
  cases h : c.bytes k <;> simp [workAfterFrame, workAfterBytes, workAfterByte, h, Width.bytes]

/-- SEND_FRAME performs the events of its frame and leaves the working registers of the last byte. -/
theorem sendFrame_tracks (c : BusConfig) (k : FrameKind) (v : Word) :
    Tracks (sendFrame c k v) (frameEvents c k v) (workAfterFrame c k v) := by
  have h := (((tracks_onBus (openFrame_performs c)).andThen
      ((sendBytes_tracks c (c.dc k) (c.bytes k) (truncate (c.bytes k) v) (c.bytes k).bytes).andThen
        (tracks_onBus (closeFrame_performs c)))).work_first
    (fun r => { r with v := some (truncate (c.bytes k) v), w := some (c.bytes k) }))
  rw [bytesWithDc_all, bytesBits_truncate _ _ (le_refl _), ← List.append_assoc] at h
  simp only [id, workAfterFrame_eq] at h
  exact h

end Sys2Proof.Machine
end

