-- ==== Sys2Proof/Laws/HostOps.lean ====
section
/-! SUPPORT. What CREATE, TRANSMIT and TEARDOWN do, whatever the oracle answers: each performs its waveform, or the part of
it up to the first failure. -/

namespace Sys2Proof.Machine

/-! ## Waveforms hold successful events only -/

theorem delayEvent_ok (h : Nat) : isFailed (delayEvent h) = false := rfl

theorem bitEvents_ok (c : BusConfig) (x : Level) : ∀ e ∈ bitEvents c x, isFailed e = false := by
  simp [bitEvents, isFailed, delayEvent]

theorem frameEvents_ok (c : BusConfig) (k : FrameKind) (v : Word) : ∀ e ∈ frameEvents c k v, isFailed e = false := by
  intro e he
  simp only [frameEvents, List.mem_append, List.mem_flatMap] at he
  rcases he with (he | ⟨x, -, he⟩) | he
  · revert e; simp [openEvents, isFailed, delayEvent]
  · exact bitEvents_ok c x e he
  · revert e; simp [closeEvents, isFailed, delayEvent]

theorem createEvents_ok (c : BusConfig) : ∀ e ∈ createEvents c, isFailed e = false := by
  simp [createEvents, isFailed]

theorem teardownEvents_ok (keepCs : Bool) : ∀ e ∈ teardownEvents keepCs, isFailed e = false := by
  cases keepCs <;> simp [teardownEvents, isFailed]

theorem transmitEvents_ok (c : BusConfig) (cmd : Option Word) (params : Option (List Byte)) :
    ∀ e ∈ transmitEvents c cmd params, isFailed e = false := by
  intro e he
  simp only [transmitEvents, List.mem_flatMap] at he
  obtain ⟨f, -, he⟩ := he
  exact frameEvents_ok c f.1 f.2 e he

/-! ## How many line operations -/

theorem lineCount_flatMap_bits (c : BusConfig) (xs : List Level) : lineCount (xs.flatMap (bitEvents c)) = 3 * xs.length := by
  induction xs with
  | nil => rfl
  | cons x xs ih =>
    rw [List.flatMap_cons, lineCount_append, ih, show lineCount (bitEvents c x) = 3 from rfl, List.length_cons]
    omega

theorem byteBits_length (lsbFirst : Bool) (b : Byte) : (byteBits lsbFirst b).length = 8 := by
  cases lsbFirst <;> rfl

theorem bytesBits_length (lsbFirst : Bool) (v : Word) (n : Nat) : (bytesBits lsbFirst v n).length = 8 * n := by
  induction n with
  | zero => rfl
  | succ n ih => simp [bytesBits, byteBits_length, ih]; omega

theorem dcBits_length (k : FrameKind) (p : DcPolicy) : (dcBits k p).length = if p = .disabled then 0 else 1 := by
  cases k <;> cases p <;> rfl

theorem frameBits_length (k : FrameKind) (p : DcPolicy) (w : Width) (lsbFirst : Bool) (v : Word) :
    (frameBits k p w lsbFirst v).length = frameLength p w := by
  cases p <;> simp [frameBits, dcBits_length, bytesBits_length, frameLength] <;> omega

theorem lineCount_frameEvents (c : BusConfig) (k : FrameKind) (v : Word) :
    lineCount (frameEvents c k v) = 3 * frameLength c.dcPolicy (c.bytes k) + 5 := by
  rw [frameEvents, lineCount_append, lineCount_append, lineCount_flatMap_bits, BusConfig.frameBits, frameBits_length,
    show lineCount (openEvents c) = 2 from rfl, show lineCount (closeEvents c) = 3 from rfl]
  omega

theorem lineCount_createEvents (c : BusConfig) : lineCount (createEvents c) = 6 := rfl

theorem lineCount_teardownEvents (keepCs : Bool) : lineCount (teardownEvents keepCs) = if keepCs then 2 else 3 := by
  cases keepCs <;> rfl

/-! ## CREATE -/

/-- Steps 3 and 4 of CREATE on the lines, an error unwound. -/
def createLines (c : BusConfig) (b : Bus) : Flow Bus :=
  (configureLines [.cs, .scl, .sda] [] b).andThen (driveRest c)

/-- The releases of an unwinding are recorded, whatever they answer (R213). -/
theorem unwind_eq (ls : List Line) (b : Bus) :
    ∃ us rest, us.length = ls.length ∧ unwind ls b = busAfter b (releaseEvents ls us) rest := by
  induction ls generalizing b with
  | nil => exact ⟨[], b.answers, rfl, by simp [unwind, releaseEvents, busAfter_nil]⟩
  | cons l ls ih =>
    obtain ⟨u, h⟩ : ∃ u, (lineRelease l b).final = busAfter b [eventOf u (.rel l)] b.answers.tail := by
      rcases lineOp_cases (.rel l) b with ⟨-, h⟩ | ⟨-, h⟩
      · exact ⟨true, by rw [lineRelease, h, Flow.final]⟩
      · exact ⟨false, by rw [lineRelease, h, Flow.final]⟩
    obtain ⟨us, rest, hl, hu⟩ := ih (busAfter b [eventOf u (.rel l)] b.answers.tail)
    refine ⟨u :: us, rest, by simp [hl], ?_⟩
    rw [unwind, h, hu, busAfter_busAfter]
    rfl

theorem unwind_answers {ls : List Line} {us rest : List Bool} (hl : us.length = ls.length) {b : Bus}
    (h : b.answers = us ++ rest) : unwind ls b = busAfter b (releaseEvents ls us) rest := by
  induction ls generalizing b us with
  | nil =>
    obtain rfl : us = [] := by simpa using hl
    simp only [List.nil_append] at h
    subst h
    simp [unwind, releaseEvents, busAfter_nil]
  | cons l ls ih =>
    cases us with
    | nil => simp at hl
    | cons u us =>
      have h' : lineRelease l b = if u then .ok (busAfter b [eventOf u (.rel l)] (us ++ rest))
          else .ioError (busAfter b [eventOf u (.rel l)] (us ++ rest)) := by
        cases u
        · exact lineOp_false _ _ h
        · exact lineOp_true _ _ h
      have hf : (lineRelease l b).final = busAfter b [eventOf u (.rel l)] (us ++ rest) := by
        rw [h']; cases u <;> rfl
      rw [unwind, hf, ih (us := us) (by simpa using hl) rfl, busAfter_busAfter]
      rfl

/-- CREATE on the lines is its waveform, and after a failure the unwinding of what was configured (R211, R213). -/
theorem createLines_cases (c : BusConfig) (b : Bus) :
    (∃ rest, perform (createEvents c) b = .ok (busAfter b (createEvents c) rest) ∧
      createLines c b = .ok (busAfter b (createEvents c) rest)) ∨
    (∃ k rest, k < 6 ∧ perform (createEvents c) b = .ioError (busAfter b (failAt k (createEvents c)) rest) ∧
      createLines c b = .ioError (unwind (unwoundLines k) (busAfter b (failAt k (createEvents c)) rest))) := by
  unfold createEvents createLines
  rw [perform_cfgOut, configureLines]
  rcases lineOp_cases (.cfgOut .cs) b with ⟨-, h⟩ | ⟨-, h⟩ <;> simp only [lineCfgOut, h, Flow.andThen_ok, Flow.andThen_ioError]
  swap
  · exact .inr ⟨0, _, by decide, rfl, rfl⟩
  generalize hb1 : busAfter b [eventOf true (.cfgOut .cs)] b.answers.tail = b1
  rw [perform_cfgOut, configureLines]
  rcases lineOp_cases (.cfgOut .scl) b1 with ⟨-, h⟩ | ⟨-, h⟩ <;> simp only [lineCfgOut, h, Flow.andThen_ok, Flow.andThen_ioError]
  swap
  · refine .inr ⟨1, b1.answers.tail, by decide, ?_, ?_⟩ <;> rw [← hb1, busAfter_busAfter] <;> rfl
  generalize hb2 : busAfter b1 [eventOf true (.cfgOut .scl)] b1.answers.tail = b2
  rw [← hb1, busAfter_busAfter] at hb2
  rw [perform_cfgOut, configureLines]
  rcases lineOp_cases (.cfgOut .sda) b2 with ⟨-, h⟩ | ⟨-, h⟩ <;> simp only [lineCfgOut, h, Flow.andThen_ok, Flow.andThen_ioError]
  swap
  · refine .inr ⟨2, b2.answers.tail, by decide, ?_, ?_⟩ <;> rw [← hb2, busAfter_busAfter] <;> rfl
  generalize hb3 : busAfter b2 [eventOf true (.cfgOut .sda)] b2.answers.tail = b3
  rw [← hb2, busAfter_busAfter] at hb3
  rw [perform_set, configureLines, Flow.andThen_ok, driveRest]
  rcases lineOp_cases (.set .cs (!c.csActive)) b3 with ⟨-, h⟩ | ⟨-, h⟩ <;> simp only [lineSet, h, Flow.andThen_ok, Flow.andThen_ioError]
  swap
  · refine .inr ⟨3, b3.answers.tail, by decide, ?_, ?_⟩ <;> rw [← hb3, busAfter_busAfter] <;> rfl
  generalize hb4 : busAfter b3 [eventOf true (.set .cs (!c.csActive))] b3.answers.tail = b4
  rw [← hb3, busAfter_busAfter] at hb4
  rw [perform_set]
  rcases lineOp_cases (.set .scl c.sclIdle) b4 with ⟨-, h⟩ | ⟨-, h⟩ <;> simp only [lineSet, h, Flow.andThen_ok, Flow.andThen_ioError]
  swap
  · refine .inr ⟨4, b4.answers.tail, by decide, ?_, ?_⟩ <;> rw [← hb4, busAfter_busAfter] <;> rfl
  generalize hb5 : busAfter b4 [eventOf true (.set .scl c.sclIdle)] b4.answers.tail = b5
  rw [← hb4, busAfter_busAfter] at hb5
  rw [perform_set]
  rcases lineOp_cases (.set .sda c.sdaIdle) b5 with ⟨-, h⟩ | ⟨-, h⟩ <;> simp only [lineSet, h, Flow.andThen_ok, Flow.andThen_ioError]
  · refine .inl ⟨b5.answers.tail, ?_, ?_⟩ <;> rw [← hb5, busAfter_busAfter] <;> rfl
  · refine .inr ⟨5, b5.answers.tail, by decide, ?_, ?_⟩ <;> rw [← hb5, busAfter_busAfter] <;> rfl

theorem failAt_create_length {c : BusConfig} {k : Nat} (h : k < 6) : (failAt k (createEvents c)).length = k + 1 := by
  have : k = 0 ∨ k = 1 ∨ k = 2 ∨ k = 3 ∨ k = 4 ∨ k = 5 := by omega
  rcases this with rfl | rfl | rfl | rfl | rfl | rfl <;> rfl

/-- CREATE on the lines when every operation succeeds (R214). -/
theorem createLines_ok {c : BusConfig} {b : Bus} {rest : List Bool} (h : b.answers = List.replicate 6 true ++ rest) :
    createLines c b = .ok (busAfter b (createEvents c) rest) := by
  have hp := perform_ok (createEvents_ok c) (b := b) (rest := rest) h
  rcases createLines_cases c b with ⟨r, h1, h2⟩ | ⟨k, r, -, h1, -⟩
  · rw [h1] at hp; rw [h2, hp]
  · rw [h1] at hp; exact absurd hp (by simp)

/-- CREATE on the lines when its operation number `k` fails and the releases of the unwinding are answered `us` (R213). -/
theorem createLines_fail {c : BusConfig} {b : Bus} {k : Nat} (hk : k < 6) {us rest : List Bool}
    (hu : us.length = (unwoundLines k).length) (h : b.answers = List.replicate k true ++ false :: (us ++ rest)) :
    createLines c b = .ioError (busAfter b (failAt k (createEvents c) ++ releaseEvents (unwoundLines k) us) rest) := by
  have hp := perform_fail (createEvents_ok c) (k := k) hk h
  rcases createLines_cases c b with ⟨r, h1, -⟩ | ⟨k', r, hk', h1, h2⟩
  · rw [h1] at hp; exact absurd hp (by simp)
  · rw [h1] at hp
    have hb := Flow.ioError.inj hp
    have ht : failAt k' (createEvents c) = failAt k (createEvents c) := by
      have := congrArg Bus.trace hb
      exact List.append_cancel_left this
    have hkk : k' = k := by
      have := congrArg List.length ht
      rw [failAt_create_length hk', failAt_create_length hk] at this
      omega
    subst hkk
    have hr : r = us ++ rest := congrArg Bus.answers hb
    subst hr
    rw [h2, unwind_answers hu rfl, busAfter_busAfter]

/-! ## TRANSMIT -/

/-- The events of the frames of a list of requests, with the words they read. -/
def requestEvents (c : BusConfig) (m : Memory) : List FrameReq → List Event
  | [] => []
  | r :: rs =>
    (match frameWord c m r with
      | none => []
      | some v => frameEvents c (frameKind r) v) ++ requestEvents c m rs

theorem requestEvents_ok (c : BusConfig) (m : Memory) (rs : List FrameReq) : ∀ e ∈ requestEvents c m rs, isFailed e = false := by
  induction rs with
  | nil => simp [requestEvents]
  | cons r rs ih =>
    intro e he
    simp only [requestEvents, List.mem_append] at he
    rcases he with he | he
    · rcases hw : frameWord c m r with _ | v
      · simp [hw] at he
      · simp only [hw] at he; exact frameEvents_ok c _ v e he
    · exact ih e he

/-- What a TRANSMIT leaves when it ends with a result and the lines are `b` (R215, R219). -/
def afterTransmit (s : State) (b : Bus) (r : Result) : State :=
  reply r (endTransmit { s with bus := b })

theorem afterTransmit_congr {s t : State} (hc : s.cfg = t.cfg) (hb : s.bind = t.bind) (hp : s.pending = t.pending)
    (hr : s.results = t.results) (hl : s.plat = t.plat) (b : Bus) (r : Result) : afterTransmit s b r = afterTransmit t b r := by
  simp [afterTransmit, reply, endTransmit, hc, hb, hp, hr, hl]

/-- The frame loop performs the events of its frames and ends the TRANSMIT, with `Ok` or at the first failure. -/
theorem sendFrames_eq (c : BusConfig) (rs : List FrameReq) : ∀ s : State, (∀ r ∈ rs, frameWord c s.mem r ≠ none) →
    (∀ b, perform (requestEvents c s.mem rs) s.bus = .ok b → sendFrames c rs s = .next (afterTransmit s b .ok)) ∧
    (∀ b, perform (requestEvents c s.mem rs) s.bus = .ioError b → sendFrames c rs s = .next (afterTransmit s b .ioError)) := by
  induction rs with
  | nil =>
    intro s _
    refine ⟨fun b hb => ?_, fun b hb => ?_⟩ <;> cases hb
    rfl
  | cons r rs ih =>
    intro s hs
    obtain ⟨v, hv⟩ := Option.ne_none_iff_exists'.mp (hs r (by simp))
    have ht := sendFrame_tracks c (frameKind r) v (State.setIndex { s with todo := rs } r)
    simp only [State.setIndex_bus, State.setIndex_phase, State.setIndex_cfg, State.setIndex_bind, State.setIndex_mem,
      State.setIndex_todo, State.setIndex_pending, State.setIndex_results, State.setIndex_plat] at ht
    simp only [requestEvents, hv, perform_append, sendFrames]
    rcases hp : perform (frameEvents c (frameKind r) v) s.bus with b1 | b1
    · rw [ht.1 b1 hp]
      simp only [Flow.andThen_ok]
      exact ih { s with bus := b1, todo := rs,
                        work := workAfterFrame c (frameKind r) v (State.setIndex { s with todo := rs } r).work }
        (fun x hx => hs x (by simp [hx]))
    · obtain ⟨w, hw⟩ := ht.2 b1 hp
      rw [hw]
      simp only [Flow.andThen_ioError]
      refine ⟨by simp, fun b hb => ?_⟩
      cases hb
      rfl

theorem frameWord_command (c : BusConfig) (m : Memory) (v : Word) : frameWord c m (.command v) = some (truncate c.cmdBytes v) :=
  rfl

theorem truncate_of_lt {w : Width} {x : Nat} (h : x < 2 ^ (8 * w.bytes)) : truncate w (BitVec.ofNat 32 x) = BitVec.ofNat 32 x := by
  have h4 : 8 * w.bytes ≤ 32 := by cases w <;> decide
  have h32 : x < 2 ^ 32 := lt_of_lt_of_le h (Nat.pow_le_pow_right (by decide) h4)
  rw [truncate, BitVec.toNat_ofNat, Nat.mod_eq_of_lt h32, Nat.mod_eq_of_lt h]

theorem index_in_buffer {i n W : Nat} (h : i < n / W) : i * W + W ≤ n := by
  have h1 : (i + 1) * W ≤ n / W * W := Nat.mul_le_mul_right W h
  have h2 := Nat.div_mul_le_self n W
  calc i * W + W = (i + 1) * W := by ring
    _ ≤ n := le_trans h1 h2

/-- Parameter word `i` of a buffer that holds it (R64). -/
theorem frameWord_parameter (c : BusConfig) (bytes : List Byte) (i : Nat)
    (h : i * c.paramBytes.bytes + c.paramBytes.bytes ≤ bytes.length) :
    frameWord c (loadBuffer bytes) (.parameter i) = some (BitVec.ofNat 32 (paramValue bytes c.paramBytes.bytes i)) := by
  rw [frameWord, readWord_loadBuffer _ _ _ h, Option.map_some, truncate_of_lt (sumBytes_lt bytes _ _)]
  rfl

theorem planFrames_words (c : BusConfig) (cmd : Option Word) (bytes : List Byte) :
    ∀ r ∈ planFrames c cmd bytes.length, frameWord c (loadBuffer bytes) r ≠ none := by
  intro r hr
  simp only [planFrames, List.mem_append, List.mem_map, List.mem_range] at hr
  rcases hr with ⟨v, -, rfl⟩ | ⟨i, hi, rfl⟩
  · simp [frameWord_command]
  · simp [frameWord_parameter c bytes i (index_in_buffer hi)]

theorem requestEvents_append (c : BusConfig) (m : Memory) (rs qs : List FrameReq) :
    requestEvents c m (rs ++ qs) = requestEvents c m rs ++ requestEvents c m qs := by
  induction rs with
  | nil => rfl
  | cons r rs ih => simp [requestEvents, ih]

theorem requestEvents_parameters (c : BusConfig) (bytes : List Byte) (is : List Nat)
    (h : ∀ i ∈ is, i * c.paramBytes.bytes + c.paramBytes.bytes ≤ bytes.length) :
    requestEvents c (loadBuffer bytes) (is.map FrameReq.parameter) =
      (is.map fun i => (FrameKind.parameter, BitVec.ofNat 32 (paramValue bytes c.paramBytes.bytes i))).flatMap
        fun f => frameEvents c f.1 f.2 := by
  induction is with
  | nil => rfl
  | cons i is ih =>
    simp only [List.map_cons, requestEvents, frameWord_parameter c bytes i (h i (by simp)), List.flatMap_cons, frameKind]
    rw [ih fun j hj => h j (by simp [hj])]

/-- The frame loop of a TRANSMIT has the events the rules give it. -/
theorem requestEvents_plan (c : BusConfig) (cmd : Option Word) (params : Option (List Byte)) :
    requestEvents c (loadBuffer (bufferBytes params)) (planFrames c cmd (bufferBytes params).length) =
      transmitEvents c cmd params := by
  rw [planFrames, requestEvents_append,
    requestEvents_parameters c _ _ fun i hi => index_in_buffer (List.mem_range.mp hi), transmitEvents, transmitWords,
    List.flatMap_append]
  congr 1
  cases commandWord cmd with
  | none => rfl
  | some v =>
    simp only [Option.toList_some, List.map_cons, List.map_nil, requestEvents, frameWord_command, frameKind, List.append_nil,
      List.flatMap_cons, List.flatMap_nil]
    exact frameEvents_truncate c .command v

/-- A TRANSMIT performs its events and ends with `Ok`, or at the first failure with `IoError`. -/
theorem execTransmit_eq {s : State} (hp : s.phase = .idle) {c : BusConfig} (hc : s.cfg = some c) (cmd : Option Word)
    (params : Option (List Byte)) :
    (∀ b, perform (transmitEvents c cmd params) s.bus = .ok b → execTransmit cmd params s = .next (afterTransmit s b .ok)) ∧
    (∀ b, perform (transmitEvents c cmd params) s.bus = .ioError b →
      execTransmit cmd params s = .next (afterTransmit s b .ioError)) := by
  have h := sendFrames_eq c (planFrames c cmd (bufferBytes params).length) (beginTransmit c cmd params s)
    (planFrames_words c cmd (bufferBytes params))
  simp only [beginTransmit, requestEvents_plan] at h
  simp only [execTransmit, hp, ne_eq, not_true_eq_false, if_false, hc]
  exact h

/-! ## TEARDOWN -/

/-- What a TEARDOWN leaves when it ends with a result and the lines are `b` (R221, R223). -/
def afterTeardown (s : State) (b : Bus) (r : Result) : State :=
  reply r (dropInstance { s with phase := .released, bus := b })

theorem execTeardown_eq {s : State} (hp : s.phase = .idle) {c : BusConfig} (hc : s.cfg = some c) :
    (∀ b, perform (teardownEvents c.keepCs) s.bus = .ok b → execTeardown s = .next (afterTeardown s b .ok)) ∧
    (∀ b, perform (teardownEvents c.keepCs) s.bus = .ioError b → execTeardown s = .next (afterTeardown s b .ioError)) := by
  simp only [execTeardown, hp, ne_eq, not_true_eq_false, if_false, hc, onBus, releaseLines_performs]
  refine ⟨fun b hb => ?_, fun b hb => ?_⟩ <;> rw [hb] <;> rfl

/-! ## The frame formats -/

theorem exec_frameInstr (k : FrameKind) (p : DcPolicy) (w : Width) (v : Word) (s : State) :
    ∃ m, exec (frameInstr k p w v) s = runFrame m k p w v s := by
  cases k <;> cases p <;> cases w <;> exact ⟨_, rfl⟩

/-- A frame that `cfg` selects performs its events; a failure ends the TRANSMIT in progress. -/
theorem exec_frame_eq {s : State} (hp : s.phase = .transacting) {c : BusConfig} (hc : s.cfg = some c) (k : FrameKind) (v : Word) :
    (∀ b, perform (frameEvents c k v) s.bus = .ok b →
      exec (frameInstr k c.dcPolicy (c.bytes k) v) s = .next { s with bus := b, work := workAfterFrame c k v s.work }) ∧
    (∀ b, perform (frameEvents c k v) s.bus = .ioError b →
      exec (frameInstr k c.dcPolicy (c.bytes k) v) s = .next (afterTransmit s b .ioError)) := by
  obtain ⟨m, hm⟩ := exec_frameInstr k c.dcPolicy (c.bytes k) v s
  have ht := sendFrame_tracks c k v s
  have he : runFrame m k c.dcPolicy (c.bytes k) v s = .next (afterFrame (sendFrame c k v s)) := by
    simp [runFrame, hp, hc]
  refine ⟨fun b hb => ?_, fun b hb => ?_⟩
  · rw [hm, he, ht.1 b hb]; rfl
  · obtain ⟨r, hr⟩ := ht.2 b hb
    rw [hm, he, hr]; rfl

end Sys2Proof.Machine
end

