-- ==== Sys2Proof/Laws/Create.lean ====
section
/-! SUPPORT. CREATE's validation and decoding against the rules' own words, and CREATE as a whole. -/

namespace Sys2Proof.Machine

theorem widthOption_some {n : Nat} {w : Width} (h : widthOption n = some w) : w.bytes = n := by
  unfold widthOption at h
  split at h <;> cases h <;> rfl

theorem widthOption_of_range {n : Nat} (h1 : 1 ≤ n) (h4 : n ≤ 4) : ∃ w, widthOption n = some w := by
  obtain rfl | rfl | rfl | rfl : n = 1 ∨ n = 2 ∨ n = 3 ∨ n = 4 := by omega
  all_goals exact ⟨_, rfl⟩

theorem widthOption_range {n : Nat} {w : Width} (h : widthOption n = some w) : 1 ≤ n ∧ n ≤ 4 := by
  rw [← widthOption_some h]; cases w <;> decide

theorem lineOption_some {o : LineOption} {b : LineBinding} : lineOption o = some b ↔ BoundAs o b := by
  rcases o with id | ⟨_ | h, id⟩ <;> simp [lineOption, BoundAs, eq_comm]

theorem lineOption_isSome {o : LineOption} : (∃ b, lineOption o = some b) ↔ HandlePresent o := by
  rcases o with id | ⟨_ | h, id⟩ <;> simp [lineOption, HandlePresent]

theorem clockOption_isSome {m : Nat} {f : Option Nat} : (∃ z, clockOption m f = some z) ↔ ∀ x, f = some x → x = 0 ∨ x ≤ m := by
  rcases f with _ | f
  · simp [clockOption]
  · by_cases h0 : f = 0 <;> by_cases hm : f ≤ m <;> simp [clockOption, h0, hm]

theorem clockOption_eq (m z : Nat) (f : Option Nat) :
    clockOption m f = some z → z = match f with | none => m | some x => if x = 0 then m else x := by
  rcases f with _ | f
  · simp [clockOption, eq_comm]
  · by_cases h0 : f = 0 <;> by_cases hm : f ≤ m <;> simp [clockOption, h0, hm, eq_comm]

/-- What decodes is valid, and decodes as the rules say (R92 to R99, R212). -/
theorem decodeOptions_some {p : Platform} {o : Options} {d : Decoding} (h : decodeOptions p o = some d) :
    OptionsValid p o ∧ DecodedFrom p o d.cfg ∧ BoundAs o.csLine d.cs ∧ BoundAs o.sclLine d.scl ∧ BoundAs o.sdaLine d.sda := by
  unfold decodeOptions at h
  split at h
  · rename_i cw pw hz cs scl sda hcw hpw hhz hcs hscl hsda
    cases h
    refine ⟨⟨widthOption_range hcw, widthOption_range hpw, clockOption_isSome.mp ⟨_, hhz⟩, lineOption_isSome.mp ⟨_, hcs⟩,
      lineOption_isSome.mp ⟨_, hscl⟩, lineOption_isSome.mp ⟨_, hsda⟩⟩, ?_, lineOption_some.mp hcs, lineOption_some.mp hscl,
      lineOption_some.mp hsda⟩
    exact
      { clock := clockOption_eq _ _ _ hhz, half := rfl, cmd := widthOption_some hcw, param := widthOption_some hpw, bitOrder := rfl,
        policy := by cases h1 : o.useDiscriminatorBit <;> cases h2 : o.discriminatorLowMeansData <;> simp [policyOption]
        csLevel := rfl, clockIdle := rfl, dataIdle := rfl, edge := rfl, keep := rfl }
  · cases h

theorem decodeOptions_of_valid {p : Platform} {o : Options} (h : OptionsValid p o) : ∃ d, decodeOptions p o = some d := by
  obtain ⟨⟨h1, h2⟩, ⟨h3, h4⟩, h5, h6, h7, h8⟩ := h
  obtain ⟨cw, hcw⟩ := widthOption_of_range h1 h2
  obtain ⟨pw, hpw⟩ := widthOption_of_range h3 h4
  obtain ⟨hz, hhz⟩ := clockOption_isSome.mpr h5
  obtain ⟨cs, hcs⟩ := lineOption_isSome.mpr h6
  obtain ⟨scl, hscl⟩ := lineOption_isSome.mpr h7
  obtain ⟨sda, hsda⟩ := lineOption_isSome.mpr h8
  exact ⟨_, by simp only [decodeOptions, hcw, hpw, hhz, hcs, hscl, hsda]; rfl⟩

theorem width_bytes_inj {a b : Width} (h : a.bytes = b.bytes) : a = b := by
  cases a <;> cases b <;> first | rfl | exact absurd h (by decide)

/-- A record of options decodes to at most one configuration. -/
theorem decodedFrom_unique {p : Platform} {o : Options} {c c' : BusConfig} (h : DecodedFrom p o c) (h' : DecodedFrom p o c') :
    c = c' := by
  obtain ⟨a1, a2, a3, a4, a5, a6, a7, a8, a9, a10, a11⟩ := h
  obtain ⟨b1, b2, b3, b4, b5, b6, b7, b8, b9, b10, b11⟩ := h'
  have e1 : c.clockHz = c'.clockHz := a1.trans b1.symm
  have e2 : c.halfPeriodUs = c'.halfPeriodUs := by rw [a2, b2, e1]
  cases c; cases c'
  simp only [BusConfig.mk.injEq]
  exact ⟨e1, e2, width_bytes_inj (a3.trans b3.symm), width_bytes_inj (a4.trans b4.symm), a5.trans b5.symm, a6.trans b6.symm,
    a7.trans b7.symm, a8.trans b8.symm, a9.trans b9.symm, a10.trans b10.symm, a11.trans b11.symm⟩

theorem boundAs_unique {o : LineOption} {b b' : LineBinding} (h : BoundAs o b) (h' : BoundAs o b') : b = b' := by
  rw [← lineOption_some] at h h'
  exact Option.some.inj (h.symm.trans h')

/-- The decoding of a record that the rules decode to this configuration and these bindings. -/
theorem decodeOptions_eq {p : Platform} {o : Options} (hv : OptionsValid p o) {c : BusConfig} (hc : DecodedFrom p o c)
    {x y z : LineBinding} (hx : BoundAs o.csLine x) (hy : BoundAs o.sclLine y) (hz : BoundAs o.sdaLine z) :
    decodeOptions p o = some { cfg := c, cs := x, scl := y, sda := z } := by
  obtain ⟨d, hd⟩ := decodeOptions_of_valid hv
  obtain ⟨-, h1, h2, h3, h4⟩ := decodeOptions_some hd
  rw [hd]
  cases d
  simp only [Option.some.injEq, Decoding.mk.injEq]
  exact ⟨decodedFrom_unique h1 hc, boundAs_unique h2 hx, boundAs_unique h3 hy, boundAs_unique h4 hz⟩

theorem pinsAliased_iff (d : Decoding) : pinsAliased d = true ↔ d.cs = d.scl ∨ d.cs = d.sda ∨ d.scl = d.sda := by
  simp [pinsAliased, or_assoc]

/-- CREATE after its validation: the result of the line operations decides. -/
theorem execCreate_eq {s : State} (hp : s.phase = .uninitialized) {o : Options} {d : Decoding}
    (hd : decodeOptions s.plat o = some d) (ha : pinsAliased d = false) :
    execCreate o s = .next
      (match createLines d.cfg s.bus with
        | .ok b => reply .ok { latchOptions d s with bus := b, phase := .idle }
        | .ioError b => raise .createIo { s with bus := b }) := by
  rw [execCreate, if_neg (by simp [hp]), hd]
  simp only [ha, Bool.false_eq_true, if_false]
  congr 1
  simp only [onBus, createLines, latchOptions]
  rcases (configureLines [.cs, .scl, .sda] [] s.bus).andThen (driveRest d.cfg) with b | b
  · rfl
  · simp [raise, dropInstance, reply]

/-- The four ways a CREATE can go. -/
theorem execCreate_cases (o : Options) (s : State) :
    (s.phase ≠ .uninitialized ∧ execCreate o s = .refused (.notAdmitted "CREATE" s.phase)) ∨
    (s.phase = .uninitialized ∧ decodeOptions s.plat o = none ∧ execCreate o s = .next (raise .createInvalid s)) ∨
    (s.phase = .uninitialized ∧ ∃ d, decodeOptions s.plat o = some d ∧
      ((pinsAliased d = true ∧ execCreate o s = .refused .aliasedPins) ∨
       (pinsAliased d = false ∧ execCreate o s = .next
          (match createLines d.cfg s.bus with
            | .ok b => reply .ok { latchOptions d s with bus := b, phase := .idle }
            | .ioError b => raise .createIo { s with bus := b })))) := by
  by_cases hp : s.phase = .uninitialized
  · rcases hd : decodeOptions s.plat o with _ | d
    · exact .inr (.inl ⟨hp, rfl, by simp [execCreate, hp, hd]⟩)
    · refine .inr (.inr ⟨hp, d, rfl, ?_⟩)
      rcases ha : pinsAliased d with _ | _
      · exact .inr ⟨rfl, execCreate_eq hp hd ha⟩
      · exact .inl ⟨rfl, by simp [execCreate, hp, hd, ha]⟩
  · exact .inl ⟨hp, by simp [execCreate, hp]⟩

end Sys2Proof.Machine
end

