-- ==== Sys2Proof/Laws/PerInstr.lean ====
section
/-! SUPPORT. One statement per instruction: the code of an instruction has as many bits as its row of spec/opcode_table.json
(R101, R107, R121). -/

namespace Sys2Proof.Laws.CodeLength

open Sys2Proof.Machine

/-- The bits of a code. -/
def codeBits : Code → Nat
  | .hostOp _ _       => 3
  | .wire _ _ _ _ bits => bits.length

/-- The bits of an instruction's row: 3 for a selector (R121), the length of its pattern for a frame format (R107). -/
def rowBits : Instr → Nat
  | .create _ => 3
  | .transmit _ _ => 3
  | .teardown => 3
  | .rxParam => 3
  | .txColor => 3
  | .registerCallbacks => 3
  | .frameCNW1 _ => 8
  | .frameCNW2 _ => 16
  | .frameCNW3 _ => 24
  | .frameCNW4 _ => 32
  | .frameCLCW1 _ => 9
  | .frameCLCW2 _ => 17
  | .frameCLCW3 _ => 25
  | .frameCLCW4 _ => 33
  | .frameCLDW1 _ => 9
  | .frameCLDW2 _ => 17
  | .frameCLDW3 _ => 25
  | .frameCLDW4 _ => 33
  | .framePNW1 _ => 8
  | .framePNW2 _ => 16
  | .framePNW3 _ => 24
  | .framePNW4 _ => 32
  | .framePLCW1 _ => 9
  | .framePLCW2 _ => 17
  | .framePLCW3 _ => 25
  | .framePLCW4 _ => 33
  | .framePLDW1 _ => 9
  | .framePLDW2 _ => 17
  | .framePLDW3 _ => 25
  | .framePLDW4 _ => 33

/-- The encoding of an instruction is as long as its row, in either bit order. -/
def Statement (i : Instr) : Prop :=
  ∀ lsbFirst : Bool, codeBits (encode lsbFirst i) = rowBits i

theorem create (o : Options) : Statement (.create o) := fun _ => rfl
theorem transmit (cmd : Option Word) (ps : Option (List Byte)) : Statement (.transmit cmd ps) := fun _ => rfl
theorem teardown : Statement (.teardown) := fun _ => rfl
theorem rxParam : Statement (.rxParam) := fun _ => rfl
theorem txColor : Statement (.txColor) := fun _ => rfl
theorem registerCallbacks : Statement (.registerCallbacks) := fun _ => rfl
theorem frameCNW1 (v : Word) : Statement (.frameCNW1 v) := fun l => frameBits_length .command .disabled .w1 l v
theorem frameCNW2 (v : Word) : Statement (.frameCNW2 v) := fun l => frameBits_length .command .disabled .w2 l v
theorem frameCNW3 (v : Word) : Statement (.frameCNW3 v) := fun l => frameBits_length .command .disabled .w3 l v
theorem frameCNW4 (v : Word) : Statement (.frameCNW4 v) := fun l => frameBits_length .command .disabled .w4 l v
theorem frameCLCW1 (v : Word) : Statement (.frameCLCW1 v) := fun l => frameBits_length .command .lowMeansCommand .w1 l v
theorem frameCLCW2 (v : Word) : Statement (.frameCLCW2 v) := fun l => frameBits_length .command .lowMeansCommand .w2 l v
theorem frameCLCW3 (v : Word) : Statement (.frameCLCW3 v) := fun l => frameBits_length .command .lowMeansCommand .w3 l v
theorem frameCLCW4 (v : Word) : Statement (.frameCLCW4 v) := fun l => frameBits_length .command .lowMeansCommand .w4 l v
theorem frameCLDW1 (v : Word) : Statement (.frameCLDW1 v) := fun l => frameBits_length .command .lowMeansData .w1 l v
theorem frameCLDW2 (v : Word) : Statement (.frameCLDW2 v) := fun l => frameBits_length .command .lowMeansData .w2 l v
theorem frameCLDW3 (v : Word) : Statement (.frameCLDW3 v) := fun l => frameBits_length .command .lowMeansData .w3 l v
theorem frameCLDW4 (v : Word) : Statement (.frameCLDW4 v) := fun l => frameBits_length .command .lowMeansData .w4 l v
theorem framePNW1 (v : Word) : Statement (.framePNW1 v) := fun l => frameBits_length .parameter .disabled .w1 l v
theorem framePNW2 (v : Word) : Statement (.framePNW2 v) := fun l => frameBits_length .parameter .disabled .w2 l v
theorem framePNW3 (v : Word) : Statement (.framePNW3 v) := fun l => frameBits_length .parameter .disabled .w3 l v
theorem framePNW4 (v : Word) : Statement (.framePNW4 v) := fun l => frameBits_length .parameter .disabled .w4 l v
theorem framePLCW1 (v : Word) : Statement (.framePLCW1 v) := fun l => frameBits_length .parameter .lowMeansCommand .w1 l v
theorem framePLCW2 (v : Word) : Statement (.framePLCW2 v) := fun l => frameBits_length .parameter .lowMeansCommand .w2 l v
theorem framePLCW3 (v : Word) : Statement (.framePLCW3 v) := fun l => frameBits_length .parameter .lowMeansCommand .w3 l v
theorem framePLCW4 (v : Word) : Statement (.framePLCW4 v) := fun l => frameBits_length .parameter .lowMeansCommand .w4 l v
theorem framePLDW1 (v : Word) : Statement (.framePLDW1 v) := fun l => frameBits_length .parameter .lowMeansData .w1 l v
theorem framePLDW2 (v : Word) : Statement (.framePLDW2 v) := fun l => frameBits_length .parameter .lowMeansData .w2 l v
theorem framePLDW3 (v : Word) : Statement (.framePLDW3 v) := fun l => frameBits_length .parameter .lowMeansData .w3 l v
theorem framePLDW4 (v : Word) : Statement (.framePLDW4 v) := fun l => frameBits_length .parameter .lowMeansData .w4 l v

end Sys2Proof.Laws.CodeLength
end

