-- ==== Sys2Proof/Laws/Sampler.lean ====
section
/-! SUPPORT. The reference sampler walks the waveforms: one sample per bit, none at the edges around a frame (R110, R112). -/

namespace Sys2Proof.Machine

theorem sampleEvents_append (c : BusConfig) (es fs : List Event) (st : Sampler) :
    sampleEvents c (es ++ fs) st = (sampleEvents c es st).bind (sampleEvents c fs) := by
  induction es generalizing st with
  | nil => rfl
  | cons e es ih =>
    simp only [List.cons_append, sampleEvents]
    cases sampleEvent c e st with
    | none => rfl
    | some st' => exact ih st'

/-- Inside a frame: `CS` active, the bits recorded so far, the clock at some level; `SDA` may have any level. -/
def insideFrame (c : BusConfig) (scl : Level) (sda : Option Level) (bits : List Level) (out : List (List Level)) : Sampler where
  lvl    := { cs := some c.csActive, scl := some scl, sda := sda }
  frame  := some bits
  frames := out

theorem postEdge_ne (c : BusConfig) : c.postEdge ≠ c.preEdge := by simp [BusConfig.postEdge]

/-- The events of one bit record that bit, wherever the clock was (R110). -/
theorem sample_bit (c : BusConfig) (x scl : Level) (sda : Option Level) (bits : List Level) (out : List (List Level)) :
    sampleEvents c (bitEvents c x) (insideFrame c scl sda bits out) =
      some (insideFrame c c.postEdge (some x) (bits ++ [x]) out) := by
  have h := (postEdge_ne c).symm
  simp [sampleEvents, bitEvents, sampleEvent, sampleSet, sampleBit, isFailed, insideFrame, delayEvent, h]

theorem sample_bits (c : BusConfig) (xs : List Level) : ∀ (scl : Level) (sda : Option Level) (bits : List Level)
    (out : List (List Level)), xs ≠ [] → ∃ x,
    sampleEvents c (xs.flatMap (bitEvents c)) (insideFrame c scl sda bits out) =
      some (insideFrame c c.postEdge (some x) (bits ++ xs) out) := by
  induction xs with
  | nil => intro _ _ _ _ h; exact absurd rfl h
  | cons y ys ih =>
    intro scl sda bits out _
    rw [List.flatMap_cons, sampleEvents_append, sample_bit, Option.bind_some]
    by_cases hy : ys = []
    · subst hy; exact ⟨y, rfl⟩
    · obtain ⟨x, hx⟩ := ih c.postEdge (some y) (bits ++ [y]) out hy
      exact ⟨x, by rw [hx, List.append_assoc]; rfl⟩

/-- No frame is open, and the clock is not about to make an active edge by being set to the pre-edge level. -/
theorem sample_open (c : BusConfig) (st : Sampler) (h : st.frame = none) :
    sampleEvents c (openEvents c) st = some (insideFrame c c.preEdge st.lvl.sda [] st.frames) := by
  have h2 := postEdge_ne c
  simp [sampleEvents, openEvents, sampleEvent, sampleSet, isFailed, insideFrame, delayEvent, h, h2.symm]

theorem sample_close (c : BusConfig) (x : Level) (bits : List Level) (out : List (List Level)) :
    sampleEvents c (closeEvents c) (insideFrame c c.postEdge (some x) bits out) =
      some { lvl := { cs := some (!c.csActive), scl := some c.sclIdle, sda := some c.sdaIdle }
             frame := none, frames := out ++ [bits] } := by
  have h2 := postEdge_ne c
  simp [sampleEvents, closeEvents, sampleEvent, sampleSet, isFailed, insideFrame, delayEvent, h2]

theorem frameBits_ne_nil (c : BusConfig) (k : FrameKind) (v : Word) : c.frameBits k v ≠ [] := by
  intro h
  have := frameBits_length k c.dcPolicy (c.bytes k) c.lsbFirst v
  rw [show frameBits k c.dcPolicy (c.bytes k) c.lsbFirst v = c.frameBits k v from rfl, h] at this
  cases hp : c.dcPolicy <;> cases hw : c.bytes k <;> simp [hp, hw, frameLength, Width.bytes] at this

/-- A frame's events record its bits, whatever came before (R112, R200). -/
theorem sample_frame (c : BusConfig) (k : FrameKind) (v : Word) (st : Sampler) (h : st.frame = none) :
    sampleEvents c (frameEvents c k v) st =
      some { lvl := { cs := some (!c.csActive), scl := some c.sclIdle, sda := some c.sdaIdle }
             frame := none, frames := st.frames ++ [c.frameBits k v] } := by
  obtain ⟨x, hx⟩ := sample_bits c (c.frameBits k v) c.preEdge st.lvl.sda [] st.frames (frameBits_ne_nil c k v)
  rw [frameEvents, sampleEvents_append, sampleEvents_append, sample_open c st h, Option.bind_some, hx, Option.bind_some,
    List.nil_append, sample_close]

theorem sample_frames (c : BusConfig) (fs : List (FrameKind × Word)) : ∀ st : Sampler, st.frame = none →
    ∃ lvl, sampleEvents c (fs.flatMap fun f => frameEvents c f.1 f.2) st =
      some { lvl := lvl, frame := none, frames := st.frames ++ fs.map fun f => c.frameBits f.1 f.2 } := by
  induction fs with
  | nil => intro st h; exact ⟨st.lvl, by cases st; simp_all [sampleEvents]⟩
  | cons f fs ih =>
    intro st h
    rw [List.flatMap_cons, sampleEvents_append, sample_frame c f.1 f.2 st h, Option.bind_some]
    obtain ⟨lvl, hl⟩ := ih
      { lvl := { cs := some (!c.csActive), scl := some c.sclIdle, sda := some c.sdaIdle }
        frame := none, frames := st.frames ++ [c.frameBits f.1 f.2] } rfl
    exact ⟨lvl, by rw [hl]; simp⟩

end Sys2Proof.Machine
end

