-- ==== Sys2Proof/Laws/Wire.lean ====
section
/-! SUPPORT. Reading a frame's bits back: the lemmas behind the agreement of decoder and encoder (R65, R100 to R104). -/

namespace Sys2Proof

open Sys2Proof.Machine

theorem bitsToNat_append (xs : List Level) (x : Level) : bitsToNat (xs ++ [x]) = 2 * bitsToNat xs + x.toNat := by
  simp [bitsToNat]

/-- The bits of a byte, most significant first, read back. -/
theorem wireByte_byteBits (lsbFirst : Bool) (b : Byte) : wireByte lsbFirst (byteBits lsbFirst b) = b.toNat := by
  have key : ∀ b : Byte, bitsToNat (byteBits false b) = b.toNat := by decide
  cases lsbFirst
  · exact key b
  · rw [← key b]; rfl

theorem wireValue_append (lsbFirst : Bool) (n : Nat) (v : Word) (acc : Nat) (rest : List Level) :
    wireValue lsbFirst n (bytesBits lsbFirst v n ++ rest) acc = acc * 2 ^ (8 * n) + v.toNat % 2 ^ (8 * n) := by
  induction n generalizing acc with
  | zero => simp [wireValue, Nat.mod_one]
  | succ n ih =>
    have h8 := byteBits_length lsbFirst (byteOf v n)
    have ht : (byteBits lsbFirst (byteOf v n) ++ (bytesBits lsbFirst v n ++ rest)).take 8 = byteBits lsbFirst (byteOf v n) := by
      rw [List.take_append_of_le_length (by omega), List.take_of_length_le (by omega)]
    have hd : (byteBits lsbFirst (byteOf v n) ++ (bytesBits lsbFirst v n ++ rest)).drop 8 = bytesBits lsbFirst v n ++ rest := by
      rw [List.drop_append_of_le_length (by omega), List.drop_of_length_le (by omega), List.nil_append]
    rw [bytesBits, List.append_assoc, wireValue, ht, hd, ih, wireByte_byteBits]
    have hb : (byteOf v n).toNat = v.toNat / 2 ^ (8 * n) % 256 := by
      simp [byteOf, BitVec.extractLsb'_toNat, Nat.shiftRight_eq_div_pow]
    rw [hb, show 8 * (n + 1) = 8 * n + 8 by omega, pow_add, show (2 : Nat) ^ 8 = 256 by rfl, Nat.mod_mul]
    ring

theorem wireValue_bytesBits (lsbFirst : Bool) (w : Width) (v : Word) :
    BitVec.ofNat 32 (wireValue lsbFirst w.bytes (bytesBits lsbFirst v w.bytes) 0) = truncate w v := by
  have h := wireValue_append lsbFirst w.bytes v 0 []
  rw [List.append_nil, Nat.zero_mul, Nat.zero_add] at h
  rw [h, truncate]

/-- A frame's bits decode to the instruction of its format, with the word cut to its width (R65, R105). -/
theorem decodeFrame_frameBits (k : FrameKind) (p : DcPolicy) (w : Width) (lsbFirst : Bool) (v : Word) :
    decodeFrame k p w lsbFirst (frameBits k p w lsbFirst v) = .instr (frameInstr k p w (truncate w v)) := by
  have hl := frameBits_length k p w lsbFirst v
  have ht : (frameBits k p w lsbFirst v).take (dcBits k p).length = dcBits k p := by simp [frameBits]
  have hd : (frameBits k p w lsbFirst v).drop (dcBits k p).length = bytesBits lsbFirst v w.bytes := by simp [frameBits]
  rw [decodeFrame, if_neg (by simp [hl]), if_neg (by simp [ht]), hd, wireValue_bytesBits]

/-- A word that fits is not cut. -/
theorem truncate_of_fits {w : Width} {v : Word} (h : w.fits v = true) : truncate w v = v := by
  simp only [Width.fits, decide_eq_true_eq] at h
  rw [truncate, Nat.mod_eq_of_lt h, BitVec.ofNat_toNat, BitVec.setWidth_eq]

theorem fits_truncate (w : Width) (v : Word) : w.fits (truncate w v) = true := by
  have h1 : v.toNat % 2 ^ (8 * w.bytes) < 2 ^ (8 * w.bytes) := Nat.mod_lt _ (Nat.two_pow_pos _)
  simp only [Width.fits, truncate, BitVec.toNat_ofNat, decide_eq_true_eq]
  exact lt_of_le_of_lt (Nat.mod_le _ _) h1

theorem frameInstr_wellFormed (k : FrameKind) (p : DcPolicy) (w : Width) (v : Word) :
    (frameInstr k p w v).wellFormed = w.fits v := by
  cases k <;> cases p <;> cases w <;> rfl

theorem encode_frameInstr (lsbFirst : Bool) (k : FrameKind) (p : DcPolicy) (w : Width) (v : Word) :
    encode lsbFirst (frameInstr k p w v) = encodeFrame k p w lsbFirst v := by
  cases k <;> cases p <;> cases w <;> rfl

/-- Eight bits are the bits of the byte they spell. -/
theorem byteBits_of_bits {xs : List Level} (h : xs.length = 8) (lsbFirst : Bool) :
    wireByte lsbFirst xs < 256 ∧ byteBits lsbFirst (BitVec.ofNat 8 (wireByte lsbFirst xs)) = xs := by
  match xs, h with
  | [a, b, c, d, e, f, g, i], _ =>
    cases lsbFirst <;> revert a b c d e f g i <;> decide

/-- A bit string of `8*n` bits is the bits of every word whose low bytes are its value (R65). -/
theorem bytesBits_of_wireValue (lsbFirst : Bool) (n : Nat) : ∀ (bits : List Level) (acc : Nat), bits.length = 8 * n →
    ∃ m, m < 2 ^ (8 * n) ∧ wireValue lsbFirst n bits acc = acc * 2 ^ (8 * n) + m ∧
      ∀ v : Word, v.toNat % 2 ^ (8 * n) = m → bytesBits lsbFirst v n = bits := by
  induction n with
  | zero =>
    intro bits acc h
    obtain rfl : bits = [] := by simpa using h
    exact ⟨0, by simp, by simp [wireValue], fun v _ => rfl⟩
  | succ n ih =>
    intro bits acc h
    obtain ⟨m, hm, he, hb⟩ := ih (bits.drop 8) (acc * 256 + wireByte lsbFirst (bits.take 8)) (by simp [h]; omega)
    obtain ⟨hlt, hby⟩ := byteBits_of_bits (xs := bits.take 8) (by simp [h]) lsbFirst
    have hp : 2 ^ (8 * (n + 1)) = 2 ^ (8 * n) * 256 := by rw [show 8 * (n + 1) = 8 * n + 8 by ring, Nat.pow_add]
    refine ⟨wireByte lsbFirst (bits.take 8) * 2 ^ (8 * n) + m, by rw [hp]; nlinarith, by rw [wireValue, he]; ring, ?_⟩
    intro v hv
    rw [hp] at hv
    have hlow : v.toNat % 2 ^ (8 * n) = m := by
      have := congrArg (· % 2 ^ (8 * n)) hv
      rwa [Nat.mod_mul_right_mod, Nat.mul_add_mod_self_right, Nat.mod_eq_of_lt hm] at this
    have hbyte : byteOf v n = BitVec.ofNat 8 (wireByte lsbFirst (bits.take 8)) := by
      apply BitVec.eq_of_toNat_eq
      simp only [byteOf, BitVec.extractLsb'_toNat, BitVec.toNat_ofNat, Nat.shiftRight_eq_div_pow]
      have h1 := Nat.mod_mul_right_div_self v.toNat (2 ^ (8 * n)) 256
      rw [hv, Nat.mul_comm, Nat.mul_add_div (Nat.two_pow_pos _), Nat.div_eq_of_lt hm] at h1
      omega
    rw [bytesBits, hbyte, hby, hb v hlow, List.take_append_drop]

end Sys2Proof
end

