-- ==== Sys2Proof/Laws/Step.lean ====
section
/-! SUPPORT. What an instruction and a step can do, said once: every way to a next state, with the state it leaves. -/

namespace Sys2Proof.Machine

/-! ## Instructions -/

/-- Every instruction is a host operation or a frame of some kind, policy and width. -/
theorem instr_cases (i : Instr) :
    (∃ o, i = .create o) ∨ (∃ cmd ps, i = .transmit cmd ps) ∨ i = .teardown ∨
    (i = .rxParam ∨ i = .txColor ∨ i = .registerCallbacks) ∨ ∃ k p w v, i = frameInstr k p w v := by
  cases i
  case create o => exact .inl ⟨o, rfl⟩
  case transmit cmd ps => exact .inr (.inl ⟨cmd, ps, rfl⟩)
  case teardown => exact .inr (.inr (.inl rfl))
  case rxParam => exact .inr (.inr (.inr (.inl (.inl rfl))))
  case txColor => exact .inr (.inr (.inr (.inl (.inr (.inl rfl)))))
  case registerCallbacks => exact .inr (.inr (.inr (.inl (.inr (.inr rfl)))))
  case frameCNW1 v => exact .inr (.inr (.inr (.inr ⟨.command, .disabled, .w1, v, rfl⟩)))
  case frameCNW2 v => exact .inr (.inr (.inr (.inr ⟨.command, .disabled, .w2, v, rfl⟩)))
  case frameCNW3 v => exact .inr (.inr (.inr (.inr ⟨.command, .disabled, .w3, v, rfl⟩)))
  case frameCNW4 v => exact .inr (.inr (.inr (.inr ⟨.command, .disabled, .w4, v, rfl⟩)))
  case frameCLCW1 v => exact .inr (.inr (.inr (.inr ⟨.command, .lowMeansCommand, .w1, v, rfl⟩)))
  case frameCLCW2 v => exact .inr (.inr (.inr (.inr ⟨.command, .lowMeansCommand, .w2, v, rfl⟩)))
  case frameCLCW3 v => exact .inr (.inr (.inr (.inr ⟨.command, .lowMeansCommand, .w3, v, rfl⟩)))
  case frameCLCW4 v => exact .inr (.inr (.inr (.inr ⟨.command, .lowMeansCommand, .w4, v, rfl⟩)))
  case frameCLDW1 v => exact .inr (.inr (.inr (.inr ⟨.command, .lowMeansData, .w1, v, rfl⟩)))
  case frameCLDW2 v => exact .inr (.inr (.inr (.inr ⟨.command, .lowMeansData, .w2, v, rfl⟩)))
  case frameCLDW3 v => exact .inr (.inr (.inr (.inr ⟨.command, .lowMeansData, .w3, v, rfl⟩)))
  case frameCLDW4 v => exact .inr (.inr (.inr (.inr ⟨.command, .lowMeansData, .w4, v, rfl⟩)))
  case framePNW1 v => exact .inr (.inr (.inr (.inr ⟨.parameter, .disabled, .w1, v, rfl⟩)))
  case framePNW2 v => exact .inr (.inr (.inr (.inr ⟨.parameter, .disabled, .w2, v, rfl⟩)))
  case framePNW3 v => exact .inr (.inr (.inr (.inr ⟨.parameter, .disabled, .w3, v, rfl⟩)))
  case framePNW4 v => exact .inr (.inr (.inr (.inr ⟨.parameter, .disabled, .w4, v, rfl⟩)))
  case framePLCW1 v => exact .inr (.inr (.inr (.inr ⟨.parameter, .lowMeansCommand, .w1, v, rfl⟩)))
  case framePLCW2 v => exact .inr (.inr (.inr (.inr ⟨.parameter, .lowMeansCommand, .w2, v, rfl⟩)))
  case framePLCW3 v => exact .inr (.inr (.inr (.inr ⟨.parameter, .lowMeansCommand, .w3, v, rfl⟩)))
  case framePLCW4 v => exact .inr (.inr (.inr (.inr ⟨.parameter, .lowMeansCommand, .w4, v, rfl⟩)))
  case framePLDW1 v => exact .inr (.inr (.inr (.inr ⟨.parameter, .lowMeansData, .w1, v, rfl⟩)))
  case framePLDW2 v => exact .inr (.inr (.inr (.inr ⟨.parameter, .lowMeansData, .w2, v, rfl⟩)))
  case framePLDW3 v => exact .inr (.inr (.inr (.inr ⟨.parameter, .lowMeansData, .w3, v, rfl⟩)))
  case framePLDW4 v => exact .inr (.inr (.inr (.inr ⟨.parameter, .lowMeansData, .w4, v, rfl⟩)))

/-! No frame is a host operation, and a frame has one kind, policy, width and word. -/

section
variable (k : FrameKind) (p : DcPolicy) (w : Width) (v : Word)

@[simp] theorem frameInstr_ne_create (o : Options) : frameInstr k p w v ≠ .create o := by
  cases k <;> cases p <;> cases w <;> simp [frameInstr]
@[simp] theorem frameInstr_ne_transmit (cmd : Option Word) (ps : Option (List Byte)) :
    frameInstr k p w v ≠ .transmit cmd ps := by
  cases k <;> cases p <;> cases w <;> simp [frameInstr]
@[simp] theorem frameInstr_ne_teardown : frameInstr k p w v ≠ .teardown := by
  cases k <;> cases p <;> cases w <;> simp [frameInstr]
@[simp] theorem frameInstr_ne_rxParam : frameInstr k p w v ≠ .rxParam := by
  cases k <;> cases p <;> cases w <;> simp [frameInstr]
@[simp] theorem frameInstr_ne_txColor : frameInstr k p w v ≠ .txColor := by
  cases k <;> cases p <;> cases w <;> simp [frameInstr]
@[simp] theorem frameInstr_ne_registerCallbacks : frameInstr k p w v ≠ .registerCallbacks := by
  cases k <;> cases p <;> cases w <;> simp [frameInstr]
@[simp] theorem create_ne_frameInstr (o : Options) : .create o ≠ frameInstr k p w v := (frameInstr_ne_create k p w v o).symm
@[simp] theorem transmit_ne_frameInstr (cmd : Option Word) (ps : Option (List Byte)) :
    .transmit cmd ps ≠ frameInstr k p w v := (frameInstr_ne_transmit k p w v cmd ps).symm
@[simp] theorem teardown_ne_frameInstr : .teardown ≠ frameInstr k p w v := (frameInstr_ne_teardown k p w v).symm
@[simp] theorem rxParam_ne_frameInstr : .rxParam ≠ frameInstr k p w v := (frameInstr_ne_rxParam k p w v).symm
@[simp] theorem txColor_ne_frameInstr : .txColor ≠ frameInstr k p w v := (frameInstr_ne_txColor k p w v).symm
@[simp] theorem registerCallbacks_ne_frameInstr : .registerCallbacks ≠ frameInstr k p w v :=
  (frameInstr_ne_registerCallbacks k p w v).symm

end

@[simp] theorem frameInstr_inj (k k' : FrameKind) (p p' : DcPolicy) (w w' : Width) (v v' : Word) :
    frameInstr k p w v = frameInstr k' p' w' v' ↔ k = k' ∧ p = p' ∧ w = w' ∧ v = v' := by
  refine ⟨fun h => ?_, fun ⟨h1, h2, h3, h4⟩ => by rw [h1, h2, h3, h4]⟩
  have he := congrArg (encode false) h
  simp only [encode_frameInstr, encodeFrame, Code.wire.injEq] at he
  obtain ⟨rfl, rfl, rfl, -⟩ := he
  refine ⟨rfl, rfl, rfl, ?_⟩
  revert h
  cases k <;> cases p <;> cases w <;> simp [frameInstr]

/-! ## What an instruction can do -/

/-- Every way an instruction has to a next state, with its guards. -/
inductive Effect (s : State) (i : Instr) : State → Prop where
  /-- CREATE with options that are not valid (R212). -/
  | createInvalid (o : Options) (hi : i = .create o) (hp : s.phase = .uninitialized) (hd : decodeOptions s.plat o = none) :
      Effect s i (raise .createInvalid s)
  /-- CREATE whose line operations succeed (R211, R214). -/
  | createOk (o : Options) (d : Decoding) (rest : List Bool) (hi : i = .create o) (hp : s.phase = .uninitialized)
      (hd : decodeOptions s.plat o = some d) (ha : pinsAliased d = false) :
      Effect s i (reply .ok { latchOptions d s with bus := busAfter s.bus (createEvents d.cfg) rest, phase := .idle })
  /-- CREATE that is unwound (R213). -/
  | createFails (o : Options) (d : Decoding) (k : Nat) (us rest : List Bool) (hi : i = .create o)
      (hp : s.phase = .uninitialized) (hd : decodeOptions s.plat o = some d) (ha : pinsAliased d = false) (hk : k < 6)
      (hu : us.length = (unwoundLines k).length) :
      Effect s i
        (raise .createIo { s with
          bus := busAfter s.bus (failAt k (createEvents d.cfg) ++ releaseEvents (unwoundLines k) us) rest })
  /-- TRANSMIT whose line operations succeed (R215). -/
  | transmitOk (cmd : Option Word) (ps : Option (List Byte)) (c : BusConfig) (rest : List Bool) (hi : i = .transmit cmd ps)
      (hp : s.phase = .idle) (hc : s.cfg = some c) :
      Effect s i (afterTransmit s (busAfter s.bus (transmitEvents c cmd ps) rest) .ok)
  /-- TRANSMIT that fails (R219). -/
  | transmitFails (cmd : Option Word) (ps : Option (List Byte)) (c : BusConfig) (k : Nat) (rest : List Bool)
      (hi : i = .transmit cmd ps) (hp : s.phase = .idle) (hc : s.cfg = some c)
      (hk : k < lineCount (transmitEvents c cmd ps)) :
      Effect s i (afterTransmit s (busAfter s.bus (failAt k (transmitEvents c cmd ps)) rest) .ioError)
  /-- TEARDOWN whose releases succeed (R221). -/
  | teardownOk (c : BusConfig) (rest : List Bool) (hi : i = .teardown) (hp : s.phase = .idle) (hc : s.cfg = some c) :
      Effect s i (afterTeardown s (busAfter s.bus (teardownEvents c.keepCs) rest) .ok)
  /-- TEARDOWN that fails (R223). -/
  | teardownFails (c : BusConfig) (k : Nat) (rest : List Bool) (hi : i = .teardown) (hp : s.phase = .idle)
      (hc : s.cfg = some c) (hk : k < lineCount (teardownEvents c.keepCs)) :
      Effect s i (afterTeardown s (busAfter s.bus (failAt k (teardownEvents c.keepCs)) rest) .ioError)
  /-- The three unsupported operations (R253). -/
  | unsupported (hi : i = .rxParam ∨ i = .txColor ∨ i = .registerCallbacks) (hp : s.phase = .idle) :
      Effect s i (raise .unsupported s)
  /-- A frame whose line operations succeed (R192). -/
  | frameOk (k : FrameKind) (c : BusConfig) (v : Word) (rest : List Bool)
      (hi : i = frameInstr k c.dcPolicy (c.bytes k) v) (hp : s.phase = .transacting) (hc : s.cfg = some c) :
      Effect s i { s with bus := busAfter s.bus (frameEvents c k v) rest, work := workAfterFrame c k v s.work }
  /-- A frame that fails, and with it the TRANSMIT in progress (R199, R219). -/
  | frameFails (k : FrameKind) (c : BusConfig) (v : Word) (j : Nat) (rest : List Bool)
      (hi : i = frameInstr k c.dcPolicy (c.bytes k) v) (hp : s.phase = .transacting) (hc : s.cfg = some c)
      (hj : j < lineCount (frameEvents c k v)) :
      Effect s i (afterTransmit s (busAfter s.bus (failAt j (frameEvents c k v)) rest) .ioError)

/-- A next state is one of those. -/
theorem exec_effect {i : Instr} {s t : State} (h : exec i s = .next t) : Effect s i t := by
  rcases instr_cases i with ⟨o, rfl⟩ | ⟨cmd, ps, rfl⟩ | rfl | hi | ⟨k, p, w, v, rfl⟩
  · replace h : execCreate o s = .next t := h
    rcases execCreate_cases o s with ⟨-, he⟩ | ⟨hp, hd, he⟩ | ⟨hp, d, hd, ⟨-, he⟩ | ⟨ha, he⟩⟩ <;> rw [he] at h <;> cases h
    · exact .createInvalid o rfl hp hd
    · rcases createLines_cases d.cfg s.bus with ⟨rest, -, hb⟩ | ⟨k, rest, hk, -, hb⟩
      · simp only [hb]
        exact .createOk o d rest rfl hp hd ha
      · obtain ⟨us, rest', hu, he⟩ := unwind_eq (unwoundLines k) (busAfter s.bus (failAt k (createEvents d.cfg)) rest)
        simp only [hb, he, busAfter_busAfter]
        exact .createFails o d k us rest' rfl hp hd ha hk hu
  · replace h : execTransmit cmd ps s = .next t := h
    by_cases hp : s.phase = .idle
    · rcases hc : s.cfg with _ | c
      · simp [execTransmit, hp, hc] at h
      · obtain ⟨h1, h2⟩ := execTransmit_eq hp hc cmd ps
        rcases perform_cases (transmitEvents_ok c cmd ps) s.bus with ⟨r, hr⟩ | ⟨k, r, hk, hr⟩
        · rw [h1 _ hr] at h; cases h; exact .transmitOk cmd ps c r rfl hp hc
        · rw [h2 _ hr] at h; cases h; exact .transmitFails cmd ps c k r rfl hp hc hk
    · simp [execTransmit, hp] at h
  · replace h : execTeardown s = .next t := h
    by_cases hp : s.phase = .idle
    · rcases hc : s.cfg with _ | c
      · simp [execTeardown, hp, hc] at h
      · obtain ⟨h1, h2⟩ := execTeardown_eq hp hc
        rcases perform_cases (teardownEvents_ok c.keepCs) s.bus with ⟨r, hr⟩ | ⟨k, r, hk, hr⟩
        · rw [h1 _ hr] at h; cases h; exact .teardownOk c r rfl hp hc
        · rw [h2 _ hr] at h; cases h; exact .teardownFails c k r rfl hp hc hk
    · simp [execTeardown, hp] at h
  · have he : ∃ m, exec i s = notSupported m s := by rcases hi with rfl | rfl | rfl <;> exact ⟨_, rfl⟩
    obtain ⟨m, hm⟩ := he
    by_cases hp : s.phase = .idle
    · rw [hm, notSupported, if_neg (by simp [hp])] at h
      cases h
      exact .unsupported hi hp
    · rw [hm, notSupported, if_pos hp] at h; cases h
  · obtain ⟨m, hm⟩ := exec_frameInstr k p w v s
    by_cases hp : s.phase = .transacting
    · rcases hc : s.cfg with _ | c
      · rw [hm] at h; simp [runFrame, hp, hc] at h
      · by_cases hf : c.dcPolicy = p ∧ c.bytes k = w
        · obtain ⟨rfl, rfl⟩ := hf
          obtain ⟨h1, h2⟩ := exec_frame_eq hp hc k v
          rcases perform_cases (frameEvents_ok c k v) s.bus with ⟨r, hr⟩ | ⟨j, r, hj, hr⟩
          · rw [h1 _ hr] at h; cases h; exact .frameOk k c v r rfl hp hc
          · rw [h2 _ hr] at h; cases h; exact .frameFails k c v j r rfl hp hc hj
        · rw [hm] at h; simp [runFrame, hp, hc, hf] at h
    · rw [hm] at h; simp [runFrame, hp] at h

/-! ## What a step can do -/

/-- A step to a next state runs the host's oldest operation, returns from a TRANSMIT, or runs its next frame. -/
theorem step_cases {s t : State} (h : step s = .next t) :
    (s.phase ≠ .transacting ∧ ∃ i rest, s.pending = i :: rest ∧ Effect { s with pending := rest } i t) ∨
    (s.phase = .transacting ∧ s.todo = [] ∧ t = afterTransmit s s.bus .ok) ∨
    (s.phase = .transacting ∧ ∃ c r rest v, s.cfg = some c ∧ s.todo = r :: rest ∧ frameWord c s.mem r = some v ∧
      Effect (State.setIndex { s with todo := rest } r) (frameInstr (frameKind r) c.dcPolicy (c.bytes (frameKind r)) v) t) := by
  by_cases hp : s.phase = .transacting
  · rcases ht : s.todo with _ | ⟨r, rest⟩
    · have : step s = .next (reply .ok (endTransmit s)) := by simp [step, fetch, hp, ht]
      rw [this] at h; cases h
      exact .inr (.inl ⟨hp, rfl, rfl⟩)
    · rcases hc : s.cfg with _ | c
      · simp [step, fetch, hp, ht, hc] at h
      · rcases hw : frameWord c s.mem r with _ | v
        · simp [step, fetch, hp, ht, hc, fetchFrame, hw] at h
        · simp only [step, fetch, if_pos hp, ht, hc, fetchFrame, hw] at h
          exact .inr (.inr ⟨hp, c, r, rest, v, rfl, rfl, hw, exec_effect h⟩)
  · rcases hq : s.pending with _ | ⟨i, rest⟩
    · simp [step, fetch, hp, hq] at h
    · simp only [step, fetch, hp, hq, if_false] at h
      exact .inl ⟨hp, i, rest, rfl, exec_effect h⟩

/-! ## What the effects have in common -/

theorem busAfter_append_of {b b' : Bus} {es : List Event} {rest : List Bool} (h : b' = busAfter b es rest) :
    b'.trace = b.trace ++ es ∧ b'.pin = pinsAfter b.pin es ∧ b'.ioFailed = (b.ioFailed || es.any isFailed) := by
  subst h; exact ⟨rfl, rfl, rfl⟩

/-- Whatever it is, an effect performs events on the lines, and leaves the host's list and the platform. -/
theorem Effect.bus {s t : State} {i : Instr} (h : Effect s i t) :
    (∃ es rest, t.bus = busAfter s.bus es rest) ∧ t.pending = s.pending ∧ t.plat = s.plat := by
  cases h <;> first
    | exact ⟨⟨_, _, rfl⟩, rfl, rfl⟩
    | exact ⟨⟨[], s.bus.answers, (busAfter_nil s.bus).symm⟩, rfl, rfl⟩

end Sys2Proof.Machine
end

