-- ==== Sys2Proof/Laws/Waveform.lean ====
section
/-! SUPPORT. The waveforms: how long they are, what the sampler records of them, where they leave the lines. -/

namespace Sys2Proof.Machine

/-! ## Lengths -/

theorem frameLength_eq (p : DcPolicy) (w : Width) : frameLength p w = 8 * w.bytes + if p = .disabled then 0 else 1 := by
  cases p <;> simp [frameLength]

theorem commandWord_length (cmd : Option Word) :
    (commandWord cmd).toList.length = match cmd with | none => 0 | some v => if 0 ≤ v.toInt then 1 else 0 := by
  rcases cmd with _ | v
  · rfl
  · simp only [commandWord]; split <;> rfl

theorem lineCount_frames (c : BusConfig) (fs : List (FrameKind × Word)) :
    lineCount (fs.flatMap fun f => frameEvents c f.1 f.2) =
      (fs.map fun f => 3 * frameLength c.dcPolicy (c.bytes f.1) + 5).sum := by
  induction fs with
  | nil => rfl
  | cons f fs ih => simp [lineCount_append, ih, lineCount_frameEvents]

/-- The line operations of a TRANSMIT. -/
theorem lineCount_transmitEvents (c : BusConfig) (cmd : Option Word) (ps : Option (List Byte)) :
    lineCount (transmitEvents c cmd ps) =
      (commandWord cmd).toList.length * (3 * frameLength c.dcPolicy c.cmdBytes + 5) +
        (ps.getD []).length / c.paramBytes.bytes * (3 * frameLength c.dcPolicy c.paramBytes + 5) := by
  rw [transmitEvents, lineCount_frames, transmitWords]
  simp [Function.comp_def, BusConfig.bytes, bufferBytes]

theorem flatMap_bits_length (c : BusConfig) (xs : List Level) : (xs.flatMap (bitEvents c)).length = 5 * xs.length := by
  simp [List.length_flatMap, bitEvents, Nat.mul_comm]

theorem frameEvents_length (c : BusConfig) (k : FrameKind) (v : Word) :
    (frameEvents c k v).length = 5 * frameLength c.dcPolicy (c.bytes k) + 8 := by
  simp only [frameEvents, List.length_append, flatMap_bits_length, BusConfig.frameBits, frameBits_length]
  simp [openEvents, closeEvents]; omega

/-- The events of a TRANSMIT (R218). -/
theorem transmitEvents_length (c : BusConfig) (cmd : Option Word) (ps : Option (List Byte)) :
    (transmitEvents c cmd ps).length =
      (commandWord cmd).toList.length * (5 * frameLength c.dcPolicy c.cmdBytes + 8) +
        (ps.getD []).length / c.paramBytes.bytes * (5 * frameLength c.dcPolicy c.paramBytes + 8) := by
  rw [transmitEvents, List.length_flatMap, transmitWords]
  simp [Function.comp_def, BusConfig.bytes, bufferBytes, frameEvents_length]

/-! ## Records -/

theorem recorded_frame (c : BusConfig) (k : FrameKind) (v : Word) : recorded c (frameEvents c k v) = some [c.frameBits k v] := by
  rw [recorded, sample_frame c k v Sampler.start rfl]; rfl

theorem recorded_transmit (c : BusConfig) (cmd : Option Word) (ps : Option (List Byte)) :
    recorded c (transmitEvents c cmd ps) =
      some ((transmitWords c cmd (bufferBytes ps)).map fun f => c.frameBits f.1 f.2) := by
  obtain ⟨l, hl⟩ := sample_frames c (transmitWords c cmd (bufferBytes ps)) Sampler.start rfl
  rw [recorded, transmitEvents, hl]; rfl

/-! ## Where the lines are left -/

/-- The end of a frame leaves the lines at rest, whatever they were (R197). -/
theorem close_rest (c : BusConfig) (p : Lines PinState) : atRest c (pinsAfter p (closeEvents c)) := by
  simp [pinsAfter, closeEvents, delayEvent, pinsAfterEvent, Lines.set, pinAfter, atRest]

theorem create_rest (c : BusConfig) (p : Lines PinState) : atRest c (pinsAfter p (createEvents c)) := by
  simp [pinsAfter, createEvents, pinsAfterEvent, Lines.set, pinAfter, atRest]

/-- Releases move the lines they release and no other. -/
theorem releases_other (ls : List Line) : ∀ (us : List Bool) (p : Lines PinState) (l : Line),
    l ∉ ls → (pinsAfter p (releaseEvents ls us)).get l = p.get l := by
  induction ls with
  | nil => intros; rfl
  | cons m ls ih =>
    intro us p l h
    cases us with
    | nil => rfl
    | cons u us =>
      have hm : l ≠ m := fun e => h (by simp [e])
      exact (ih us _ l fun e => h (by simp [e])).trans (lines_get_set_other p _ hm)

/-- A released line is no output. -/
theorem releases_same (ls : List Line) : ∀ (us : List Bool) (p : Lines PinState) (l : Line),
    us.length = ls.length → l ∈ ls → ((pinsAfter p (releaseEvents ls us)).get l).isOutput = false := by
  induction ls with
  | nil => intro _ _ l _ h; cases h
  | cons m ls ih =>
    intro us p l hu h
    cases us with
    | nil => simp at hu
    | cons u us =>
      by_cases hl : l ∈ ls
      · exact ih us (pinsAfterEvent p (.rel m u)) l (by simpa using hu) hl
      · obtain rfl : l = m := by simpa [hl] using h
        have hr := releases_other ls us (pinsAfterEvent p (.rel l u)) l hl
        have hp : pinsAfter p (releaseEvents (l :: ls) (u :: us)) =
            pinsAfter (pinsAfterEvent p (.rel l u)) (releaseEvents ls us) := rfl
        rw [hp, hr]
        cases u <;> simp [pinsAfterEvent, pinAfter, PinState.isOutput]

/-! ## The configuration of valid options -/

theorem decodedFrom_sound {p : Platform} (hm : 1 ≤ p.clkMaxHz) {o : Options} {c : BusConfig} (hv : OptionsValid p o)
    (h : DecodedFrom p o c) : ConfigSound p c := by
  have hc := h.clock
  refine ⟨?_, ?_, h.half, by rw [h.dataIdle, h.clockIdle]⟩
  · rw [hc]; split
    · exact hm
    · split <;> omega
  · rw [hc]; split
    · exact le_rfl
    · rename_i f hf
      have := hv.2.2.1 f hf
      split <;> omega

end Sys2Proof.Machine
end

