-- ==== Sys2Proof/Tests/Slice0.lean ====
section
/-! SUPPORT. Tests of the model against the spec's own vectors (95_test_vectors.md; X, V and P are its numbers), words written
out from the encodings of 30_encoding.md, ill-formed terms, and for every obligation with hypotheses a state and operands that
meet them. -/

namespace Sys2Proof.Tests

open Sys2Proof.Machine

/-! ## Helpers -/

/-- A bit string, first bit in time first. -/
def bits (xs : List Nat) : List Level := xs.map (· == 1)

/-- The platform of the vectors: a ceiling of 500000 hertz, the default mode table. -/
def plat : Platform := { clkMaxHz := 500000, modeDecode := classicModes }

/-- The options of the vectors: every option absent, false or 0, both widths 1. -/
def opts : Options where
  csLine                    := .native 0
  sclLine                   := .native 1
  sdaLine                   := .native 2
  clockHz                   := none
  commandByteWidth          := 1
  parameterByteWidth        := 1
  useDiscriminatorBit       := false
  discriminatorLowMeansData := false
  lsbFirst                  := false
  csActiveHigh              := false
  spiMode                   := 0#2
  keepCsAssertedOnTeardown  := false

/-- The configuration of those options. -/
def cfg : BusConfig where
  clockHz      := 500000
  halfPeriodUs := 1
  cmdBytes     := .w1
  paramBytes   := .w1
  lsbFirst     := false
  dcPolicy     := .disabled
  csActive     := false
  sclIdle      := false
  sdaIdle      := false
  activeEdge   := .rising
  keepCs       := false

/-- The configuration that selects a format for both kinds. -/
def cfgOf (p : DcPolicy) (w : Width) : BusConfig := { cfg with cmdBytes := w, paramBytes := w, dcPolicy := p }

/-- No line bound yet, and the environment's answers. -/
def fresh (answers : List Bool) : State where
  phase   := .uninitialized
  cfg     := none
  bind    := unbound
  bus     := { pin := { cs := .unowned, scl := .unowned, sda := .unowned }, trace := [], ioFailed := false, answers := answers }
  work    := Work.empty
  mem     := []
  todo    := []
  pending := []
  results := []
  plat    := plat

/-- An instance in `Idle` with its lines at rest. -/
def idle (c : BusConfig) (answers : List Bool) : State :=
  { fresh answers with
    phase := .idle
    cfg   := some c
    bind  := { cs := some (.native 0), scl := some (.native 1), sda := some (.native 2) }
    bus   :=
      { pin := { cs := PinState.out (!c.csActive), scl := PinState.out c.sclIdle, sda := PinState.out c.sdaIdle }
        trace := [], ioFailed := false, answers := answers } }

/-- The same instance inside a TRANSMIT, with these frames to send. -/
def inside (c : BusConfig) (todo : List FrameReq) (answers : List Bool) : State :=
  { idle c answers with phase := .transacting, todo := todo }

/-- `n` answers "done". -/
def yes (n : Nat) : List Bool := List.replicate n true

/-- The answers of a run whose line operation number `k`, counted from 1, fails. -/
def failsAt (k : Nat) : List Bool := yes (k - 1) ++ [false]

/-- The next state, where there is one. -/
def after : Host.Outcome State Fault Refusal → Option State
  | .next s    => some s
  | .fault _   => none
  | .refused _ => none

/-- What the sampler records of the trace after an instruction. -/
def records (c : BusConfig) (i : Instr) (s : State) : Option (List (List Level)) :=
  (after (exec i s)).bind fun t => recorded c t.bus.trace

/-- The counts of the vectors: events, `Set` events, `Dly` events. -/
def counts (i : Instr) (s : State) : Option (Nat × Nat × Nat) :=
  (after (exec i s)).map fun t =>
    (t.bus.trace.length, t.bus.trace.countP isSetEvent, t.bus.trace.countP isDelayEvent)

/-- The results, the phase and the pins after an instruction. -/
def ends (i : Instr) (s : State) : Option (List Result × Phase × List PinState) :=
  (after (exec i s)).map fun t => (t.results, t.phase, [t.bus.pin.cs, t.bus.pin.scl, t.bus.pin.sda])

/-! ## Ill-formed instructions: a word that does not fit its format (R105, R107) -/

theorem test_wellFormed_width_1_refuses :
    (Instr.frameCNW1 0x100#32).wellFormed = false ∧
    (Instr.frameCLCW1 0x100#32).wellFormed = false ∧
    (Instr.frameCLDW1 0x100#32).wellFormed = false ∧
    (Instr.framePNW1 0x100#32).wellFormed = false ∧
    (Instr.framePLCW1 0x100#32).wellFormed = false ∧
    (Instr.framePLDW1 0x100#32).wellFormed = false := by
  decide

theorem test_wellFormed_width_1_allows :
    (Instr.frameCNW1 0xff#32).wellFormed = true ∧
    (Instr.frameCLCW1 0xff#32).wellFormed = true ∧
    (Instr.frameCLDW1 0xff#32).wellFormed = true ∧
    (Instr.framePNW1 0xff#32).wellFormed = true ∧
    (Instr.framePLCW1 0xff#32).wellFormed = true ∧
    (Instr.framePLDW1 0xff#32).wellFormed = true := by
  decide

theorem test_wellFormed_width_2_refuses :
    (Instr.frameCNW2 0x10000#32).wellFormed = false ∧
    (Instr.frameCLCW2 0x10000#32).wellFormed = false ∧
    (Instr.frameCLDW2 0x10000#32).wellFormed = false ∧
    (Instr.framePNW2 0x10000#32).wellFormed = false ∧
    (Instr.framePLCW2 0x10000#32).wellFormed = false ∧
    (Instr.framePLDW2 0x10000#32).wellFormed = false := by
  decide

theorem test_wellFormed_width_2_allows :
    (Instr.frameCNW2 0xffff#32).wellFormed = true ∧
    (Instr.frameCLCW2 0xffff#32).wellFormed = true ∧
    (Instr.frameCLDW2 0xffff#32).wellFormed = true ∧
    (Instr.framePNW2 0xffff#32).wellFormed = true ∧
    (Instr.framePLCW2 0xffff#32).wellFormed = true ∧
    (Instr.framePLDW2 0xffff#32).wellFormed = true := by
  decide

theorem test_wellFormed_width_3_refuses :
    (Instr.frameCNW3 0x1000000#32).wellFormed = false ∧
    (Instr.frameCLCW3 0x1000000#32).wellFormed = false ∧
    (Instr.frameCLDW3 0x1000000#32).wellFormed = false ∧
    (Instr.framePNW3 0x1000000#32).wellFormed = false ∧
    (Instr.framePLCW3 0x1000000#32).wellFormed = false ∧
    (Instr.framePLDW3 0x1000000#32).wellFormed = false := by
  decide

theorem test_wellFormed_width_3_allows :
    (Instr.frameCNW3 0xffffff#32).wellFormed = true ∧
    (Instr.frameCLCW3 0xffffff#32).wellFormed = true ∧
    (Instr.frameCLDW3 0xffffff#32).wellFormed = true ∧
    (Instr.framePNW3 0xffffff#32).wellFormed = true ∧
    (Instr.framePLCW3 0xffffff#32).wellFormed = true ∧
    (Instr.framePLDW3 0xffffff#32).wellFormed = true := by
  decide

theorem test_wellFormed_width_4_allows :
    (Instr.frameCNW4 0xFFFFFFFF#32).wellFormed = true ∧
    (Instr.frameCLCW4 0xFFFFFFFF#32).wellFormed = true ∧
    (Instr.frameCLDW4 0xFFFFFFFF#32).wellFormed = true ∧
    (Instr.framePNW4 0xFFFFFFFF#32).wellFormed = true ∧
    (Instr.framePLCW4 0xFFFFFFFF#32).wellFormed = true ∧
    (Instr.framePLDW4 0xFFFFFFFF#32).wellFormed = true := by
  decide

/-! ## Decoding, from words written out by hand

A frame is the discriminator, if the policy has one, and then its bytes most significant first (R100, R102); the word is
0x12345678 cut to its width, so the bytes are 0001 0010, 0011 0100, 0101 0110, 0111 1000 from the top. -/

theorem test_decode_C_N :
    decode (.wire .command .disabled .w1 false (bits [0, 1, 1, 1, 1, 0, 0, 0])) =
      .instr (.frameCNW1 0x78#32) ∧
    decode (.wire .command .disabled .w2 false (bits [0, 1, 0, 1, 0, 1, 1, 0,
      0, 1, 1, 1, 1, 0, 0, 0])) =
      .instr (.frameCNW2 0x5678#32) ∧
    decode (.wire .command .disabled .w3 false (bits [0, 0, 1, 1, 0, 1, 0, 0,
      0, 1, 0, 1, 0, 1, 1, 0,
      0, 1, 1, 1, 1, 0, 0, 0])) =
      .instr (.frameCNW3 0x345678#32) ∧
    decode (.wire .command .disabled .w4 false (bits [0, 0, 0, 1, 0, 0, 1, 0,
      0, 0, 1, 1, 0, 1, 0, 0,
      0, 1, 0, 1, 0, 1, 1, 0,
      0, 1, 1, 1, 1, 0, 0, 0])) =
      .instr (.frameCNW4 0x12345678#32) := by
  decide

theorem test_decode_C_LC :
    decode (.wire .command .lowMeansCommand .w1 false (bits [0, 0, 1, 1, 1, 1, 0, 0, 0])) =
      .instr (.frameCLCW1 0x78#32) ∧
    decode (.wire .command .lowMeansCommand .w2 false (bits [0, 0, 1, 0, 1, 0, 1, 1, 0,
      0, 1, 1, 1, 1, 0, 0, 0])) =
      .instr (.frameCLCW2 0x5678#32) ∧
    decode (.wire .command .lowMeansCommand .w3 false (bits [0, 0, 0, 1, 1, 0, 1, 0, 0,
      0, 1, 0, 1, 0, 1, 1, 0,
      0, 1, 1, 1, 1, 0, 0, 0])) =
      .instr (.frameCLCW3 0x345678#32) ∧
    decode (.wire .command .lowMeansCommand .w4 false (bits [0, 0, 0, 0, 1, 0, 0, 1, 0,
      0, 0, 1, 1, 0, 1, 0, 0,
      0, 1, 0, 1, 0, 1, 1, 0,
      0, 1, 1, 1, 1, 0, 0, 0])) =
      .instr (.frameCLCW4 0x12345678#32) := by
  decide

theorem test_decode_C_LD :
    decode (.wire .command .lowMeansData .w1 false (bits [1, 0, 1, 1, 1, 1, 0, 0, 0])) =
      .instr (.frameCLDW1 0x78#32) ∧
    decode (.wire .command .lowMeansData .w2 false (bits [1, 0, 1, 0, 1, 0, 1, 1, 0,
      0, 1, 1, 1, 1, 0, 0, 0])) =
      .instr (.frameCLDW2 0x5678#32) ∧
    decode (.wire .command .lowMeansData .w3 false (bits [1, 0, 0, 1, 1, 0, 1, 0, 0,
      0, 1, 0, 1, 0, 1, 1, 0,
      0, 1, 1, 1, 1, 0, 0, 0])) =
      .instr (.frameCLDW3 0x345678#32) ∧
    decode (.wire .command .lowMeansData .w4 false (bits [1, 0, 0, 0, 1, 0, 0, 1, 0,
      0, 0, 1, 1, 0, 1, 0, 0,
      0, 1, 0, 1, 0, 1, 1, 0,
      0, 1, 1, 1, 1, 0, 0, 0])) =
      .instr (.frameCLDW4 0x12345678#32) := by
  decide

theorem test_decode_P_N :
    decode (.wire .parameter .disabled .w1 false (bits [0, 1, 1, 1, 1, 0, 0, 0])) =
      .instr (.framePNW1 0x78#32) ∧
    decode (.wire .parameter .disabled .w2 false (bits [0, 1, 0, 1, 0, 1, 1, 0,
      0, 1, 1, 1, 1, 0, 0, 0])) =
      .instr (.framePNW2 0x5678#32) ∧
    decode (.wire .parameter .disabled .w3 false (bits [0, 0, 1, 1, 0, 1, 0, 0,
      0, 1, 0, 1, 0, 1, 1, 0,
      0, 1, 1, 1, 1, 0, 0, 0])) =
      .instr (.framePNW3 0x345678#32) ∧
    decode (.wire .parameter .disabled .w4 false (bits [0, 0, 0, 1, 0, 0, 1, 0,
      0, 0, 1, 1, 0, 1, 0, 0,
      0, 1, 0, 1, 0, 1, 1, 0,
      0, 1, 1, 1, 1, 0, 0, 0])) =
      .instr (.framePNW4 0x12345678#32) := by
  decide

theorem test_decode_P_LC :
    decode (.wire .parameter .lowMeansCommand .w1 false (bits [1, 0, 1, 1, 1, 1, 0, 0, 0])) =
      .instr (.framePLCW1 0x78#32) ∧
    decode (.wire .parameter .lowMeansCommand .w2 false (bits [1, 0, 1, 0, 1, 0, 1, 1, 0,
      0, 1, 1, 1, 1, 0, 0, 0])) =
      .instr (.framePLCW2 0x5678#32) ∧
    decode (.wire .parameter .lowMeansCommand .w3 false (bits [1, 0, 0, 1, 1, 0, 1, 0, 0,
      0, 1, 0, 1, 0, 1, 1, 0,
      0, 1, 1, 1, 1, 0, 0, 0])) =
      .instr (.framePLCW3 0x345678#32) ∧
    decode (.wire .parameter .lowMeansCommand .w4 false (bits [1, 0, 0, 0, 1, 0, 0, 1, 0,
      0, 0, 1, 1, 0, 1, 0, 0,
      0, 1, 0, 1, 0, 1, 1, 0,
      0, 1, 1, 1, 1, 0, 0, 0])) =
      .instr (.framePLCW4 0x12345678#32) := by
  decide

theorem test_decode_P_LD :
    decode (.wire .parameter .lowMeansData .w1 false (bits [0, 0, 1, 1, 1, 1, 0, 0, 0])) =
      .instr (.framePLDW1 0x78#32) ∧
    decode (.wire .parameter .lowMeansData .w2 false (bits [0, 0, 1, 0, 1, 0, 1, 1, 0,
      0, 1, 1, 1, 1, 0, 0, 0])) =
      .instr (.framePLDW2 0x5678#32) ∧
    decode (.wire .parameter .lowMeansData .w3 false (bits [0, 0, 0, 1, 1, 0, 1, 0, 0,
      0, 1, 0, 1, 0, 1, 1, 0,
      0, 1, 1, 1, 1, 0, 0, 0])) =
      .instr (.framePLDW3 0x345678#32) ∧
    decode (.wire .parameter .lowMeansData .w4 false (bits [0, 0, 0, 0, 1, 0, 0, 1, 0,
      0, 0, 1, 1, 0, 1, 0, 0,
      0, 1, 0, 1, 0, 1, 1, 0,
      0, 1, 1, 1, 1, 0, 0, 0])) =
      .instr (.framePLDW4 0x12345678#32) := by
  decide

/-- The selectors of R121. -/
theorem test_decode_selectors :
    decode (.hostOp 0#3 (.options opts)) = .instr (.create opts) ∧
    decode (.hostOp 1#3 (.transmit (some 0x2A#32) none)) = .instr (.transmit (some 0x2A#32) none) ∧
    decode (.hostOp 2#3 .none) = .instr .teardown ∧
    decode (.hostOp 3#3 .none) = .instr .rxParam ∧
    decode (.hostOp 4#3 .none) = .instr .txColor ∧
    decode (.hostOp 5#3 .none) = .instr .registerCallbacks := by
  decide

/-- What is no instruction is rejected by name. -/
theorem test_decode_rejects :
    decode (.hostOp 6#3 .none) = .rejected .noSuchOperation ∧
    decode (.hostOp 7#3 .none) = .rejected .noSuchOperation ∧
    decode (.hostOp 0#3 .none) = .rejected .operandsMismatch ∧
    decode (.hostOp 2#3 (.options opts)) = .rejected .operandsMismatch ∧
    decode (.wire .command .disabled .w1 false (bits [0, 0, 1, 0, 1, 0, 1])) = .rejected .wrongFrameLength ∧
    decode (.wire .command .disabled .w1 false (bits [0, 0, 1, 0, 1, 0, 1, 0, 0])) = .rejected .wrongFrameLength ∧
    decode (.wire .parameter .lowMeansCommand .w1 false (bits [0, 0, 0, 1, 0, 1, 0, 1, 0])) = .rejected .wrongDiscriminator := by
  decide

/-- Least significant bit first: the first frame of V31, the frames of V33 and the command frame of P2. -/
theorem test_decode_lsb_first :
    decode (.wire .command .disabled .w2 true (bits [0, 1, 0, 0, 1, 0, 0, 0, 0, 0, 1, 0, 1, 1, 0, 0])) =
      .instr (.frameCNW2 0x1234#32) ∧
    decode (.wire .command .lowMeansCommand .w1 true (bits [0, 0, 1, 0, 1, 0, 1, 0, 0])) = .instr (.frameCLCW1 0x2A#32) ∧
    decode (.wire .parameter .lowMeansCommand .w1 true (bits [1, 1, 1, 1, 0, 1, 0, 1, 1])) = .instr (.framePLCW1 0xD7#32) ∧
    decode (.wire .command .lowMeansData .w1 true (bits [1, 0, 0, 0, 0, 1, 1, 0, 1])) = .instr (.frameCLDW1 0xB0#32) := by
  decide

/-- The patterns of the opcode table, with `a` and `b` filled in: 9 bits stand in two bytes, 33 in five (log 10). -/
theorem test_decode_table_words :
    decodeTableWord 8 2 = some .teardown ∧
    decodeTableWord 8 0x2A = some (.frameCNW1 0x2A#32) ∧
    decodeTableWord 16 0x02A = some (.frameCLCW1 0x2A#32) ∧
    decodeTableWord 16 0x12A = some (.frameCLDW1 0x2A#32) ∧
    decodeTableWord 16 0x1234 = some (.frameCNW2 0x1234#32) ∧
    decodeTableWord 40 0x112345678 = some (.frameCLDW4 0x12345678#32) ∧
    decodeTableWord 8 7 = none ∧ decodeTableWord 48 0 = none := by
  decide

/-! ## Line operations (V1 to V9), delays (V10 to V24), bits and bytes (V26 to V28) -/

/-- The lines with one line in a given state. -/
def lineBus (l : Line) (p : PinState) (answers : List Bool) : Bus :=
  { (idle cfg answers).bus with pin := ({ cs := .unowned, scl := .unowned, sda := .unowned } : Lines PinState).set l p }

/-- The state of a line, the trace and `io_failed` after a line operation, and whether it raised `IoError`. -/
def lineEnds (l : Line) : Flow Bus → PinState × List Event × Bool × Bool
  | .ok b      => (b.pin.get l, b.trace, b.ioFailed, false)
  | .ioError b => (b.pin.get l, b.trace, b.ioFailed, true)

theorem test_line_cfg_out :
    lineEnds .cs (lineCfgOut .cs (lineBus .cs .unowned [true])) = (.outX, [.cfgOut .cs true], false, false) ∧
    lineEnds .scl (lineCfgOut .scl (lineBus .scl .unowned [false])) = (.unknown, [.cfgOut .scl false], true, true) := by
  decide

theorem test_line_set :
    lineEnds .sda (lineSet .sda true (lineBus .sda .out0 [true])) = (.out1, [.set .sda true true], false, false) ∧
    lineEnds .sda (lineSet .sda true (lineBus .sda .out1 [true])) = (.out1, [.set .sda true true], false, false) ∧
    lineEnds .scl (lineSet .scl true (lineBus .scl .out0 [false])) = (.outX, [.set .scl true false], true, true) ∧
    lineEnds .cs (lineSet .cs true (lineBus .cs .outX [true])) = (.out1, [.set .cs true true], false, false) ∧
    lineEnds .scl (lineSet .scl false (lineBus .scl .unknown [false])) = (.unknown, [.set .scl false false], true, true) := by
  decide

theorem test_line_release :
    lineEnds .scl (lineRelease .scl (lineBus .scl .out0 [true])) = (.input, [.rel .scl true], false, false) ∧
    lineEnds .sda (lineRelease .sda (lineBus .sda .out0 [false])) = (.unknown, [.rel .sda false], true, true) := by
  decide

theorem test_half_period :
    [1, 2, 3, 499, 500, 501, 1000, 10000, 100000, 200000, 250000, 250001, 300000, 500000, 500001].map calcHalfPeriod =
      [500000, 250000, 166666, 1002, 1000, 998, 500, 50, 5, 2, 2, 1, 1, 1, 0] := by
  decide

theorem test_delay_mode :
    [calcHalfPeriod 499, calcHalfPeriod 500, calcHalfPeriod 501, calcHalfPeriod 500001].map delayMode =
      [.sleep, .sleep, .busy, .busy] := by
  decide

theorem test_send_bit_rising :
    (sendBit cfg true (idle cfg (yes 3)).bus).final.trace =
      [.set .sda true true, .set .scl false true, .dly 1 .busy, .set .scl true true, .dly 1 .busy] := by
  decide

theorem test_send_bit_falling :
    (sendBit { cfg with activeEdge := .falling } false (idle cfg (yes 3)).bus).final.trace =
      [.set .sda false true, .set .scl true true, .dly 1 .busy, .set .scl false true, .dly 1 .busy] := by
  decide

/-- The levels a byte puts on `SDA`, in order. -/
def byteOnSda (lsbFirst : Bool) (d : Option Level) (b : Byte) : List Level :=
  (sendByte { cfg with lsbFirst := lsbFirst } d b (idle cfg (yes 27))).final.bus.trace.filterMap fun e =>
    if e = .set .sda true true then some true else if e = .set .sda false true then some false else none

theorem test_send_byte_bits :
    byteOnSda false none 0xA5#8 = bits [1, 0, 1, 0, 0, 1, 0, 1] ∧
    byteOnSda false (some false) 0x2A#8 = bits [0, 0, 0, 1, 0, 1, 0, 1, 0] ∧
    byteOnSda true (some false) 0x2A#8 = bits [0, 0, 1, 0, 1, 0, 1, 0, 0] ∧
    byteOnSda true (some true) 0xD7#8 = bits [1, 1, 1, 1, 0, 1, 0, 1, 1] ∧
    byteOnSda true none 0x01#8 = bits [1, 0, 0, 0, 0, 0, 0, 0] ∧
    byteOnSda false none 0x80#8 = bits [1, 0, 0, 0, 0, 0, 0, 0] := by
  decide

/-! ## The 24 frame formats: what the receiver records of 0x12345678 cut to the width -/

theorem test_frame_C_N_W1 :
    records (cfgOf .disabled .w1) (.frameCNW1 0x78#32) (inside (cfgOf .disabled .w1) [] (yes 29)) =
      some [bits [0, 1, 1, 1, 1, 0, 0, 0]] := by
  decide

theorem test_frame_C_N_W2 :
    records (cfgOf .disabled .w2) (.frameCNW2 0x5678#32) (inside (cfgOf .disabled .w2) [] (yes 53)) =
      some [bits [0, 1, 0, 1, 0, 1, 1, 0,
        0, 1, 1, 1, 1, 0, 0, 0]] := by
  decide

set_option maxRecDepth 4000 in
theorem test_frame_C_N_W3 :
    records (cfgOf .disabled .w3) (.frameCNW3 0x345678#32) (inside (cfgOf .disabled .w3) [] (yes 77)) =
      some [bits [0, 0, 1, 1, 0, 1, 0, 0,
        0, 1, 0, 1, 0, 1, 1, 0,
        0, 1, 1, 1, 1, 0, 0, 0]] := by
  decide

set_option maxRecDepth 4000 in
theorem test_frame_C_N_W4 :
    records (cfgOf .disabled .w4) (.frameCNW4 0x12345678#32) (inside (cfgOf .disabled .w4) [] (yes 101)) =
      some [bits [0, 0, 0, 1, 0, 0, 1, 0,
        0, 0, 1, 1, 0, 1, 0, 0,
        0, 1, 0, 1, 0, 1, 1, 0,
        0, 1, 1, 1, 1, 0, 0, 0]] := by
  decide

theorem test_frame_C_LC_W1 :
    records (cfgOf .lowMeansCommand .w1) (.frameCLCW1 0x78#32) (inside (cfgOf .lowMeansCommand .w1) [] (yes 32)) =
      some [bits [0, 0, 1, 1, 1, 1, 0, 0, 0]] := by
  decide

theorem test_frame_C_LC_W2 :
    records (cfgOf .lowMeansCommand .w2) (.frameCLCW2 0x5678#32) (inside (cfgOf .lowMeansCommand .w2) [] (yes 56)) =
      some [bits [0, 0, 1, 0, 1, 0, 1, 1, 0,
        0, 1, 1, 1, 1, 0, 0, 0]] := by
  decide

set_option maxRecDepth 4000 in
theorem test_frame_C_LC_W3 :
    records (cfgOf .lowMeansCommand .w3) (.frameCLCW3 0x345678#32) (inside (cfgOf .lowMeansCommand .w3) [] (yes 80)) =
      some [bits [0, 0, 0, 1, 1, 0, 1, 0, 0,
        0, 1, 0, 1, 0, 1, 1, 0,
        0, 1, 1, 1, 1, 0, 0, 0]] := by
  decide

set_option maxRecDepth 4000 in
theorem test_frame_C_LC_W4 :
    records (cfgOf .lowMeansCommand .w4) (.frameCLCW4 0x12345678#32) (inside (cfgOf .lowMeansCommand .w4) [] (yes 104)) =
      some [bits [0, 0, 0, 0, 1, 0, 0, 1, 0,
        0, 0, 1, 1, 0, 1, 0, 0,
        0, 1, 0, 1, 0, 1, 1, 0,
        0, 1, 1, 1, 1, 0, 0, 0]] := by
  decide

theorem test_frame_C_LD_W1 :
    records (cfgOf .lowMeansData .w1) (.frameCLDW1 0x78#32) (inside (cfgOf .lowMeansData .w1) [] (yes 32)) =
      some [bits [1, 0, 1, 1, 1, 1, 0, 0, 0]] := by
  decide

theorem test_frame_C_LD_W2 :
    records (cfgOf .lowMeansData .w2) (.frameCLDW2 0x5678#32) (inside (cfgOf .lowMeansData .w2) [] (yes 56)) =
      some [bits [1, 0, 1, 0, 1, 0, 1, 1, 0,
        0, 1, 1, 1, 1, 0, 0, 0]] := by
  decide

set_option maxRecDepth 4000 in
theorem test_frame_C_LD_W3 :
    records (cfgOf .lowMeansData .w3) (.frameCLDW3 0x345678#32) (inside (cfgOf .lowMeansData .w3) [] (yes 80)) =
      some [bits [1, 0, 0, 1, 1, 0, 1, 0, 0,
        0, 1, 0, 1, 0, 1, 1, 0,
        0, 1, 1, 1, 1, 0, 0, 0]] := by
  decide

set_option maxRecDepth 4000 in
theorem test_frame_C_LD_W4 :
    records (cfgOf .lowMeansData .w4) (.frameCLDW4 0x12345678#32) (inside (cfgOf .lowMeansData .w4) [] (yes 104)) =
      some [bits [1, 0, 0, 0, 1, 0, 0, 1, 0,
        0, 0, 1, 1, 0, 1, 0, 0,
        0, 1, 0, 1, 0, 1, 1, 0,
        0, 1, 1, 1, 1, 0, 0, 0]] := by
  decide

theorem test_frame_P_N_W1 :
    records (cfgOf .disabled .w1) (.framePNW1 0x78#32) (inside (cfgOf .disabled .w1) [] (yes 29)) =
      some [bits [0, 1, 1, 1, 1, 0, 0, 0]] := by
  decide

theorem test_frame_P_N_W2 :
    records (cfgOf .disabled .w2) (.framePNW2 0x5678#32) (inside (cfgOf .disabled .w2) [] (yes 53)) =
      some [bits [0, 1, 0, 1, 0, 1, 1, 0,
        0, 1, 1, 1, 1, 0, 0, 0]] := by
  decide

set_option maxRecDepth 4000 in
theorem test_frame_P_N_W3 :
    records (cfgOf .disabled .w3) (.framePNW3 0x345678#32) (inside (cfgOf .disabled .w3) [] (yes 77)) =
      some [bits [0, 0, 1, 1, 0, 1, 0, 0,
        0, 1, 0, 1, 0, 1, 1, 0,
        0, 1, 1, 1, 1, 0, 0, 0]] := by
  decide

set_option maxRecDepth 4000 in
theorem test_frame_P_N_W4 :
    records (cfgOf .disabled .w4) (.framePNW4 0x12345678#32) (inside (cfgOf .disabled .w4) [] (yes 101)) =
      some [bits [0, 0, 0, 1, 0, 0, 1, 0,
        0, 0, 1, 1, 0, 1, 0, 0,
        0, 1, 0, 1, 0, 1, 1, 0,
        0, 1, 1, 1, 1, 0, 0, 0]] := by
  decide

theorem test_frame_P_LC_W1 :
    records (cfgOf .lowMeansCommand .w1) (.framePLCW1 0x78#32) (inside (cfgOf .lowMeansCommand .w1) [] (yes 32)) =
      some [bits [1, 0, 1, 1, 1, 1, 0, 0, 0]] := by
  decide

theorem test_frame_P_LC_W2 :
    records (cfgOf .lowMeansCommand .w2) (.framePLCW2 0x5678#32) (inside (cfgOf .lowMeansCommand .w2) [] (yes 56)) =
      some [bits [1, 0, 1, 0, 1, 0, 1, 1, 0,
        0, 1, 1, 1, 1, 0, 0, 0]] := by
  decide

set_option maxRecDepth 4000 in
theorem test_frame_P_LC_W3 :
    records (cfgOf .lowMeansCommand .w3) (.framePLCW3 0x345678#32) (inside (cfgOf .lowMeansCommand .w3) [] (yes 80)) =
      some [bits [1, 0, 0, 1, 1, 0, 1, 0, 0,
        0, 1, 0, 1, 0, 1, 1, 0,
        0, 1, 1, 1, 1, 0, 0, 0]] := by
  decide

set_option maxRecDepth 4000 in
theorem test_frame_P_LC_W4 :
    records (cfgOf .lowMeansCommand .w4) (.framePLCW4 0x12345678#32) (inside (cfgOf .lowMeansCommand .w4) [] (yes 104)) =
      some [bits [1, 0, 0, 0, 1, 0, 0, 1, 0,
        0, 0, 1, 1, 0, 1, 0, 0,
        0, 1, 0, 1, 0, 1, 1, 0,
        0, 1, 1, 1, 1, 0, 0, 0]] := by
  decide

theorem test_frame_P_LD_W1 :
    records (cfgOf .lowMeansData .w1) (.framePLDW1 0x78#32) (inside (cfgOf .lowMeansData .w1) [] (yes 32)) =
      some [bits [0, 0, 1, 1, 1, 1, 0, 0, 0]] := by
  decide

theorem test_frame_P_LD_W2 :
    records (cfgOf .lowMeansData .w2) (.framePLDW2 0x5678#32) (inside (cfgOf .lowMeansData .w2) [] (yes 56)) =
      some [bits [0, 0, 1, 0, 1, 0, 1, 1, 0,
        0, 1, 1, 1, 1, 0, 0, 0]] := by
  decide

set_option maxRecDepth 4000 in
theorem test_frame_P_LD_W3 :
    records (cfgOf .lowMeansData .w3) (.framePLDW3 0x345678#32) (inside (cfgOf .lowMeansData .w3) [] (yes 80)) =
      some [bits [0, 0, 0, 1, 1, 0, 1, 0, 0,
        0, 1, 0, 1, 0, 1, 1, 0,
        0, 1, 1, 1, 1, 0, 0, 0]] := by
  decide

set_option maxRecDepth 4000 in
theorem test_frame_P_LD_W4 :
    records (cfgOf .lowMeansData .w4) (.framePLDW4 0x12345678#32) (inside (cfgOf .lowMeansData .w4) [] (yes 104)) =
      some [bits [0, 0, 0, 0, 1, 0, 0, 1, 0,
        0, 0, 1, 1, 0, 1, 0, 0,
        0, 1, 0, 1, 0, 1, 1, 0,
        0, 1, 1, 1, 1, 0, 0, 0]] := by
  decide

/-- The counts of R198 for 8, 9 and 17 bits. -/
theorem test_frame_counts :
    counts (.frameCNW1 0x2A#32) (inside cfg [] (yes 29)) = some (48, 29, 19) ∧
    counts (.framePLDW1 0x2A#32) (inside (cfgOf .lowMeansData .w1) [] (yes 32)) = some (53, 32, 21) ∧
    counts (.frameCLCW2 0x1234#32) (inside (cfgOf .lowMeansCommand .w2) [] (yes 56)) = some (93, 56, 37) := by
  decide

/-! ## Frames: modes, failures, registers -/

/-- The levels a frame writes to one line, in order. -/
def levelsOf (l : Line) (r : Host.Outcome State Fault Refusal) : Option (List Level) :=
  (after r).map fun t => t.bus.trace.filterMap fun e =>
    if e = .set l true true then some true else if e = .set l false true then some false else none

/-- V29b and V29c: 0xA5 in modes 1 and 2. -/
theorem test_frame_modes :
    (let c : BusConfig := { cfg with activeEdge := .falling }
     levelsOf .scl (exec (.frameCNW1 0xA5#32) (inside c [] (yes 29))) =
       some (bits [1, 1, 0, 1, 0, 1, 0, 1, 0, 1, 0, 1, 0, 1, 0, 1, 0, 0])) ∧
    (let c : BusConfig := { cfg with activeEdge := .falling, sclIdle := true, sdaIdle := true }
     levelsOf .scl (exec (.frameCNW1 0xA5#32) (inside c [] (yes 29))) =
       some (bits [1, 1, 0, 1, 0, 1, 0, 1, 0, 1, 0, 1, 0, 1, 0, 1, 0, 1]) ∧
     levelsOf .sda (exec (.frameCNW1 0xA5#32) (inside c [] (yes 29))) = some (bits [1, 0, 1, 0, 0, 1, 0, 1, 1])) := by
  decide

/-- V71: the 14th line operation of a 9-bit frame fails. -/
theorem test_frame_failure :
    ends (.frameCLCW1 0x2A#32) (inside (cfgOf .lowMeansCommand .w1) [.parameter 0] (failsAt 14)) =
      some ([.ioError], .idle, [.out0, .outX, .out1]) ∧
    counts (.frameCLCW1 0x2A#32) (inside (cfgOf .lowMeansCommand .w1) [.parameter 0] (failsAt 14)) = some (22, 14, 8) := by
  decide

/-- R40: the working registers after a frame of two bytes. -/
theorem test_frame_registers :
    (after (exec (.frameCLCW2 0x12345678#32) (inside (cfgOf .lowMeansCommand .w2) [] (yes 56)))).map State.work =
      some { v := some 0x5678#32, w := some .w2, k := some 1#2, s := some 0#8, n := some 7#4, d := some none, f := none } := by
  decide

/-! ## CREATE -/

theorem test_create_ok :
    (after (exec (.create { opts with useDiscriminatorBit := true }) (fresh (yes 6)))).map
        (fun t => (t.results, t.phase, t.cfg, t.bus.trace)) =
      some ([.ok], .idle, some { cfg with dcPolicy := .lowMeansCommand },
        [.cfgOut .cs true, .cfgOut .scl true, .cfgOut .sda true, .set .cs true true, .set .scl false true,
         .set .sda false true]) := by
  decide

/-- V37, V39, V48: mode 3 active high at 500 hertz; mode 2; the ignored discriminator option. -/
theorem test_create_configurations :
    (after (exec (.create { opts with
        parameterByteWidth := 2, csActiveHigh := true, spiMode := 3#2, clockHz := some 500 }) (fresh (yes 6)))).bind State.cfg =
      some { cfg with
        clockHz := 500, halfPeriodUs := 1000, paramBytes := .w2, csActive := true, sclIdle := true, sdaIdle := true } ∧
    ends (.create { opts with spiMode := 2#2 }) (fresh (yes 6)) = some ([.ok], .idle, [.out1, .out1, .out1]) ∧
    (after (exec (.create { opts with discriminatorLowMeansData := true }) (fresh (yes 6)))).bind State.cfg = some cfg := by
  decide

/-- V40 to V46. -/
theorem test_create_invalid :
    [{ opts with commandByteWidth := 0 }, { opts with commandByteWidth := 5 }, { opts with parameterByteWidth := 0 },
     { opts with parameterByteWidth := 5 }, { opts with clockHz := some 500001 },
     { opts with sclLine := .expander none 3 }].map (fun o => after (exec (.create o) (fresh (yes 6)))) =
      List.replicate 6 (some { fresh (yes 6) with results := [.invalidArgument] }) ∧
    ends (.create { opts with clockHz := some 500000 }) (fresh (yes 6)) = some ([.ok], .idle, [.out1, .out0, .out0]) := by
  decide

/-- P4's kind: the 2nd and the 6th line operation of a CREATE fail. -/
theorem test_create_unwinds :
    (after (exec (.create opts) (fresh [true, false, true]))).map (fun t => (t.bus.trace, t.results, t.cfg)) =
      some ([.cfgOut .cs true, .cfgOut .scl false, .rel .cs true], [.ioError], none) ∧
    ends (.create opts) (fresh [true, true, true, true, true, false, true, false, true]) =
      some ([.ioError], .uninitialized, [.input, .unknown, .input]) := by
  decide

/-! ## TRANSMIT -/

/-- V53 and V54. -/
theorem test_transmit_words :
    records { cfg with paramBytes := .w2 } (.transmit none (some [0x11#8, 0x22#8, 0x33#8]))
        (idle { cfg with paramBytes := .w2 } (yes 53)) =
      some [bits [0, 0, 1, 0, 0, 0, 1, 0, 0, 0, 0, 1, 0, 0, 0, 1]] ∧
    records cfg (.transmit (some 0x12A#32) (some [])) (idle cfg (yes 29)) = some [bits [0, 0, 1, 0, 1, 0, 1, 0]] := by
  decide

set_option maxRecDepth 4000 in
/-- V57 cut to its first two frames: the command, then a parameter, each with its own frame. -/
theorem test_transmit_frames :
    records (cfgOf .lowMeansCommand .w1) (.transmit (some 0x2A#32) (some [0xD7#8]))
        (idle (cfgOf .lowMeansCommand .w1) (yes 64)) =
      some [bits [0, 0, 0, 1, 0, 1, 0, 1, 0], bits [1, 1, 1, 0, 1, 0, 1, 1, 1]] ∧
    ends (.transmit (some 0x2A#32) (some [0xD7#8])) (idle (cfgOf .lowMeansCommand .w1) (yes 64)) =
      some ([.ok], .idle, [.out1, .out0, .out0]) := by
  decide

/-- V50 to V52: nothing is sent, and the oracle is not asked. -/
theorem test_transmit_empty :
    after (exec (.transmit none (some [])) (idle cfg [])) = some { idle cfg [] with results := [.ok] } ∧
    after (exec (.transmit (some (-1)) none) (idle cfg [])) = some { idle cfg [] with results := [.ok] } ∧
    after (exec (.transmit (some (-5)) (some [0x11#8])) (idle { cfg with paramBytes := .w2 } [])) =
      some { idle { cfg with paramBytes := .w2 } [] with results := [.ok] } := by
  decide

/-- V70 and V73: the first and the last line operation of the command frame fail. -/
theorem test_transmit_failure :
    ends (.transmit (some 0x2A#32) (some [0x55#8])) (idle (cfgOf .lowMeansCommand .w1) (failsAt 1)) =
      some ([.ioError], .idle, [.outX, .out0, .out0]) ∧
    ends (.transmit (some 0x2A#32) (some [0x55#8])) (idle (cfgOf .lowMeansCommand .w1) (failsAt 32)) =
      some ([.ioError], .idle, [.outX, .out0, .out0]) ∧
    counts (.transmit (some 0x2A#32) (some [0x55#8])) (idle (cfgOf .lowMeansCommand .w1) (failsAt 32)) = some (52, 32, 20) := by
  decide

/-! ## TEARDOWN (V60 to V64) and the unsupported operations (V65 to V67) -/

theorem test_teardown_ok :
    ends .teardown (idle cfg (yes 3)) = some ([.ok], .released, [.input, .input, .input]) ∧
    ends .teardown (idle { cfg with keepCs := true } (yes 2)) = some ([.ok], .released, [.out1, .input, .input]) ∧
    (after (exec .teardown (idle cfg (yes 3)))).map (fun t => t.bus.trace) =
      some [.rel .scl true, .rel .sda true, .rel .cs true] := by
  decide

theorem test_teardown_failure :
    ends .teardown (idle cfg (failsAt 1)) = some ([.ioError], .released, [.out1, .unknown, .out0]) ∧
    ends .teardown (idle cfg (failsAt 2)) = some ([.ioError], .released, [.out1, .input, .unknown]) ∧
    ends .teardown (idle cfg (failsAt 3)) = some ([.ioError], .released, [.unknown, .input, .input]) := by
  decide

theorem test_unsupported :
    [Instr.rxParam, .txColor, .registerCallbacks].map (fun i => after (exec i (idle cfg []))) =
      List.replicate 3 (some { idle cfg [] with results := [.notSupported] }) := by
  decide

/-! ## Steps, and a word placed for the next one -/

theorem test_step_runs_pending :
    after (step { idle cfg (yes 3) with pending := [.teardown, .rxParam] }) =
      after (exec .teardown { idle cfg (yes 3) with pending := [.rxParam] }) := by
  decide

/-- The reason of a refusal. -/
def refusalOf : Host.Outcome State Fault Refusal → Option Refusal
  | .next _    => none
  | .fault _   => none
  | .refused r => some r

theorem test_step_ends :
    refusalOf (step (idle cfg [])) = some .noOperationIssued ∧
    (after (step (inside cfg [] []))).map (fun t => (t.phase, t.results)) = some (.idle, [.ok]) := by
  decide

theorem test_with_fetch_word :
    (after (step ((fresh []).withFetchWord 8 3))).map State.results = some [.notSupported] ∧
    ((after (step ((fresh (yes 32)).withFetchWord 16 0x02A))).bind fun t => recorded cfg t.bus.trace) =
      some [bits [0, 0, 0, 1, 0, 1, 0, 1, 0]] := by
  decide

/-! ## Witnesses: states and operands that meet the hypotheses of each obligation -/

/-- An instance in `Idle`, the host about to issue these operations, meets the invariant. -/
theorem witness_inv_idle (p : List Instr) (answers : List Bool) : Inv { idle cfg answers with pending := p } where
  ceiling := by show 1 ≤ 500000; decide
  configured _ := ⟨cfg, rfl, ⟨by decide, by show 500000 ≤ 500000; decide, rfl, rfl⟩, _, _, _, rfl, by decide, by decide, by decide⟩
  unconfigured h := absurd (.inl rfl) h
  unowned h := nomatch (show Phase.idle = .uninitialized from h)
  rest := by rintro - - c hc; cases hc; exact ⟨rfl, rfl, rfl⟩
  quiet _ := ⟨rfl, rfl, rfl⟩
  buffer := by show Memory.wf [] = true; decide
  requests := by intro c hc r hr; cases hr
  failures := rfl

/-- An instance inside a TRANSMIT, one byte in the buffer and its frame to send, meets the invariant. -/
theorem witness_inv_inside (answers : List Bool) :
    Inv { inside cfg [.parameter 0] answers with mem := loadBuffer [0xD7#8] } where
  ceiling := by show 1 ≤ 500000; decide
  configured _ := ⟨cfg, rfl, ⟨by decide, by show 500000 ≤ 500000; decide, rfl, rfl⟩, _, _, _, rfl, by decide, by decide, by decide⟩
  unconfigured h := absurd (.inr rfl) h
  unowned h := nomatch (show Phase.transacting = .uninitialized from h)
  rest := by rintro - - c hc; cases hc; exact ⟨rfl, rfl, rfl⟩
  quiet h := absurd rfl h
  buffer := by show Memory.wf (loadBuffer [0xD7#8]) = true; decide
  requests := by
    intro c hc r hr
    cases hc
    obtain rfl : r = .parameter 0 := List.mem_singleton.mp hr
    show 0 * 1 + 1 ≤ 1
    decide
  failures := rfl

/-- EveryStepKeepsInvariant, InvariantStatesNeverFault, StepsAppendEventsAndPinsFollowThem: a step from each of the two. -/
theorem witness_EveryStepKeepsInvariant :
    (Inv { idle cfg (yes 3) with pending := [.teardown] } ∧
      ∃ t, step { idle cfg (yes 3) with pending := [.teardown] } = .next t) ∧
    (Inv { inside cfg [.parameter 0] (yes 29) with mem := loadBuffer [0xD7#8] } ∧
      ∃ t, step { inside cfg [.parameter 0] (yes 29) with mem := loadBuffer [0xD7#8] } = .next t) :=
  ⟨⟨witness_inv_idle _ _, _, rfl⟩, witness_inv_inside _, _, rfl⟩

/-- ConfigurationIsImmutable: a TRANSMIT of an instance, and a frame of one. -/
theorem witness_ConfigurationIsImmutable :
    (hasInstance { idle cfg [] with pending := [.transmit none none] } ∧
      ∃ t, step { idle cfg [] with pending := [.transmit none none] } = .next t ∧ t.phase ≠ .released) ∧
    (hasInstance (inside cfg [.command 0x2A#32] (yes 29)) ∧
      ∃ t, step (inside cfg [.command 0x2A#32] (yes 29)) = .next t ∧ t.phase ≠ .released) :=
  ⟨⟨.inl rfl, _, rfl, by decide⟩, .inr rfl, _, rfl, by decide⟩

/-- PhasesMoveAsTheTableSays, EachOperationHandsOverOneResult, HostOperationsChangeNothingElse: every host operation gives a
next state somewhere, CREATE with each of its results. -/
theorem witness_PhasesMoveAsTheTableSays :
    (∃ t, exec (.create opts) (fresh (yes 6)) = .next t ∧ t.results = [.ok]) ∧
    (∃ t, exec (.create opts) (fresh [false]) = .next t ∧ t.results = [.ioError]) ∧
    (∃ t, exec (.create { opts with commandByteWidth := 5 }) (fresh []) = .next t ∧ t.results = [.invalidArgument]) ∧
    (∃ t, exec (.transmit none none) (idle cfg []) = .next t) ∧
    (∃ t, exec .teardown (idle cfg (yes 3)) = .next t) ∧
    (∃ t, exec .rxParam (idle cfg []) = .next t) ∧
    (∃ t, exec .txColor (idle cfg []) = .next t) ∧
    (∃ t, exec .registerCallbacks (idle cfg []) = .next t) :=
  ⟨⟨_, rfl, rfl⟩, ⟨_, rfl, rfl⟩, ⟨_, rfl, rfl⟩, ⟨_, rfl⟩, ⟨_, rfl⟩, ⟨_, rfl⟩, ⟨_, rfl⟩, _, rfl⟩

/-- InadmissibleOperationsAreRefused: a state for each clause. -/
theorem witness_InadmissibleOperationsAreRefused :
    (idle cfg []).phase ≠ .uninitialized ∧ (fresh []).phase ≠ .idle ∧ (inside cfg [] []).phase ≠ .idle ∧
    ({ fresh [] with phase := .released } : State).phase ≠ .idle ∧ (idle cfg []).phase ≠ .transacting := by
  decide

/-- StepRunsTheNextInstruction: a state for each clause, the word inside the buffer and the word outside it. -/
theorem witness_StepRunsTheNextInstruction :
    (({ idle cfg [] with pending := [.txColor] } : State).phase ≠ .transacting ∧
      ({ idle cfg [] with pending := [.txColor] } : State).pending = [.txColor]) ∧
    ((idle cfg []).phase ≠ .transacting ∧ (idle cfg []).pending = []) ∧
    ((inside cfg [] []).phase = .transacting ∧ (inside cfg [] []).todo = []) ∧
    ((inside cfg [.command 5#32] []).cfg = some cfg ∧ (inside cfg [.command 5#32] []).todo = [.command 5#32]) ∧
    ((inside cfg [.parameter 1] []).todo = [.parameter 1] ∧ readWord (loadBuffer [1#8, 2#8]) (1 * 1) 1 = some 2 ∧
      readWord (loadBuffer [1#8]) (1 * 1) 1 = none) ∧
    (({ inside cfg [.command 5#32] [] with cfg := none } : State).phase = .transacting ∧
      ({ inside cfg [.command 5#32] [] with cfg := none } : State).cfg = none ∧
      ({ inside cfg [.command 5#32] [] with cfg := none } : State).todo = [.command 5#32]) := by
  decide

/-- PlacedTableWordRunsNext: a selector and a frame. -/
theorem witness_PlacedTableWordRunsNext :
    decodeTableWord 8 1 = some (.transmit none none) ∧ decodeTableWord 16 0x1FF = some (.frameCLDW1 0xFF#32) := by
  decide

/-- DecodingAnEncodingGivesTheInstruction: the widest and the largest one-byte word. -/
theorem witness_DecodingAnEncodingGivesTheInstruction :
    (Instr.framePLDW4 0xFFFFFFFF#32).wellFormed = true ∧ (Instr.frameCNW1 0xFF#32).wellFormed = true ∧
    (Instr.create opts).wellFormed = true := by
  decide

/-- DecodedFramesEncodeBack: one frame with the discriminator and one without. -/
theorem witness_DecodedFramesEncodeBack :
    decode (.wire .parameter .lowMeansData .w1 false (bits [0, 1, 1, 1, 1, 1, 1, 1, 1])) = .instr (.framePLDW1 0xFF#32) ∧
    decode (.wire .command .disabled .w1 true (bits [1, 0, 0, 0, 0, 0, 0, 0])) = .instr (.frameCNW1 1#32) := by
  decide

/-- FrameLengthIsAsTheRuleSays, FrameBitsStandWhereTheRuleSays: an enabled policy; the first and the last bit of a frame. -/
theorem witness_FrameBitsStandWhereTheRuleSays :
    DcPolicy.lowMeansData ≠ .disabled ∧ (0 < Width.w1.bytes ∧ 0 < 8) ∧ 3 < Width.w4.bytes ∧ 7 < 8 := by
  decide

/-- HalfPeriodAndModeFollowTheClock: the smallest clock, and the clocks where the mode and the zero begin. -/
theorem witness_HalfPeriodAndModeFollowTheClock :
    1 ≤ 1 ∧ (1 ≤ 500 ∧ delayMode (calcHalfPeriod 500) = .sleep) ∧ (1 ≤ 501 ∧ delayMode (calcHalfPeriod 501) = .busy) ∧
    calcHalfPeriod 500000 = 1 ∧ calcHalfPeriod 500001 = 0 := by
  decide

/-- SendBitMakesOneClockCycle: the success, the first and the last failure. -/
theorem witness_SendBitMakesOneClockCycle :
    (idle cfg (yes 3)).bus.answers = [true, true, true] ++ [] ∧
    (0 < 3 ∧ (idle cfg [false]).bus.answers = List.replicate 0 true ++ false :: []) ∧
    2 < 3 ∧ (idle cfg [true, true, false]).bus.answers = List.replicate 2 true ++ false :: [] := by
  decide

/-- SendByteSendsItsBitsInOrder: eight bits and nine. -/
theorem witness_SendByteSendsItsBitsInOrder :
    (idle cfg (yes 24)).bus.answers = List.replicate (3 * 8) true ++ [] ∧
    (idle cfg (yes 27)).bus.answers = List.replicate (3 * 9) true ++ [] := by
  decide

/-- FrameFormatsComplete, FramesRecordTheirBits: for every kind, policy and width there is such a state. -/
theorem witness_FrameFormatsComplete (k : FrameKind) (p : DcPolicy) (w : Width) :
    let n := 3 * (8 * w.bytes + if p = .disabled then 0 else 1) + 5
    let s := inside (cfgOf p w) [] (yes n)
    s.phase = .transacting ∧ s.cfg = some (cfgOf p w) ∧ (cfgOf p w).dcPolicy = p ∧ (cfgOf p w).bytes k = w ∧
      s.bus.answers = List.replicate n true ++ [] :=
  ⟨rfl, rfl, rfl, by cases k <;> rfl, by simp [inside, idle, yes]⟩

/-- FrameFailureEndsTheTransmit: the first and the last line operation of the longest frame. -/
theorem witness_FrameFailureEndsTheTransmit :
    0 < 3 * (8 * Width.w4.bytes + 1) + 5 ∧ 103 < 3 * (8 * Width.w4.bytes + 1) + 5 ∧ ¬ 104 < 3 * (8 * Width.w4.bytes + 1) + 5 ∧
    (inside (cfgOf .lowMeansData .w4) [] (failsAt 104)).bus.answers = List.replicate 103 true ++ false :: [] := by
  decide

/-- FrameFormatsChangeNothingElse: a frame that succeeds and one that fails. -/
theorem witness_FrameFormatsChangeNothingElse :
    (∃ t, exec (.frameCNW1 0x2A#32) (inside cfg [] (yes 29)) = .next t ∧ t.phase = .transacting) ∧
    (∃ t, exec (.frameCNW1 0x2A#32) (inside cfg [] [false]) = .next t ∧ t.phase = .idle) :=
  ⟨⟨_, rfl, rfl⟩, _, rfl, rfl⟩

/-- UnselectedFormatsAreRefused: another policy, and another width. -/
theorem witness_UnselectedFormatsAreRefused :
    (inside cfg [] []).phase = .transacting ∧ (inside cfg [] []).cfg = some cfg ∧
    cfg.dcPolicy ≠ .lowMeansData ∧ cfg.bytes .parameter ≠ .w2 := by
  decide

/-- CreateRejectsExactlyInvalidOptions: valid options, and options with a width just outside its range. -/
theorem witness_CreateRejectsExactlyInvalidOptions :
    OptionsValid plat { opts with commandByteWidth := 4, parameterByteWidth := 4, clockHz := some 500000 } ∧
    ¬ OptionsValid plat { opts with commandByteWidth := 5 } ∧ ¬ OptionsValid plat { opts with clockHz := some 500001 } ∧
    ¬ OptionsValid plat { opts with sdaLine := .expander none 2 } ∧ (fresh []).phase = .uninitialized := by
  simp [OptionsValid, HandlePresent, plat, opts, fresh]

/-- CreateCompletes, FailedCreateUnwinds, CreateLatchesTheDecodedOptions: valid options on three pins, with their configuration. -/
theorem witness_CreateCompletes :
    (fresh (yes 6)).phase = .uninitialized ∧ OptionsValid (fresh (yes 6)).plat opts ∧ DecodedFrom (fresh (yes 6)).plat opts cfg ∧
    BoundAs opts.csLine (.native 0) ∧ BoundAs opts.sclLine (.native 1) ∧ BoundAs opts.sdaLine (.native 2) ∧
    (fresh (yes 6)).bus.answers = List.replicate 6 true ++ [] := by
  refine ⟨rfl, by simp [OptionsValid, HandlePresent, opts], ?_, rfl, rfl, rfl, rfl⟩
  exact { clock := rfl, half := rfl, cmd := rfl, param := rfl, bitOrder := rfl, policy := rfl, csLevel := rfl,
          clockIdle := rfl, dataIdle := rfl, edge := rfl, keep := rfl }

/-- FailedCreateUnwinds: the line operations 0, 1, 2, 3 and 5, where the releases are none, one, two, three and three, with the
answers of the releases. -/
theorem witness_FailedCreateUnwinds :
    (0 < 6 ∧ ([] : List Bool).length = min 0 3 ∧ (fresh [false]).bus.answers = List.replicate 0 true ++ false :: ([] ++ [])) ∧
    (1 < 6 ∧ [true].length = min 1 3 ∧
      (fresh [true, false, true]).bus.answers = List.replicate 1 true ++ false :: ([true] ++ [])) ∧
    (2 < 6 ∧ [false, true].length = min 2 3 ∧
      (fresh [true, true, false, false, true]).bus.answers = List.replicate 2 true ++ false :: ([false, true] ++ [])) ∧
    (3 < 6 ∧ [true, true, true].length = min 3 3 ∧
      (fresh [true, true, true, false, true, true, true]).bus.answers =
        List.replicate 3 true ++ false :: ([true, true, true] ++ [])) ∧
    (5 < 6 ∧ [true, false, true].length = min 5 3 ∧
      (fresh [true, true, true, true, true, false, true, false, true]).bus.answers =
        List.replicate 5 true ++ false :: ([true, false, true] ++ [])) := by
  decide

/-- AliasedPinsAreRefused: `CS` and `SDA` on one pin of one expander. -/
theorem witness_AliasedPinsAreRefused :
    OptionsValid plat { opts with csLine := .expander (some 7) 2, sdaLine := .expander (some 7) 2 } ∧
    BoundAs (.expander (some 7) 2) (.expander 7 2) ∧ BoundAs opts.sclLine (.native 1) := by
  refine ⟨by simp [OptionsValid, HandlePresent, plat, opts], ⟨7, rfl, rfl⟩, rfl⟩

/-- CreateLatchesTheDecodedOptions, CreateLatchesPolicyOrderLevelAndFlag: such a CREATE ends in `Idle`, without the
discriminator and with it. -/
theorem witness_CreateLatchesTheDecodedOptions :
    (opts.useDiscriminatorBit = false ∧ ∃ t, exec (.create opts) (fresh (yes 6)) = .next t ∧ t.phase = .idle) ∧
    ∃ t, exec (.create { opts with useDiscriminatorBit := true, discriminatorLowMeansData := true }) (fresh (yes 6)) = .next t ∧
      t.phase = .idle :=
  ⟨⟨rfl, _, rfl, rfl⟩, _, rfl, rfl⟩

/-- TransmitCompletes, TransmitSendsTheRuledNumberOfFrames, TransmitRecordsItsWords: a command and one parameter word. -/
theorem witness_TransmitCompletes :
    let c := cfgOf .lowMeansCommand .w1
    (idle c (yes 64)).phase = .idle ∧ (idle c (yes 64)).cfg = some c ∧ 0 ≤ (0x2A#32 : Word).toInt ∧
    (idle c (yes 64)).bus.answers = List.replicate (1 * (3 * (8 * 1 + 1) + 5) + 1 / 1 * (3 * (8 * 1 + 1) + 5)) true ++ [] ∧
    lineCount (transmitEvents c (some 0x2A#32) (some [0xD7#8])) = 64 ∧
    ∃ t, exec (.transmit (some 0x2A#32) (some [0xD7#8])) (idle c (yes 64)) = .next t ∧ t.results = [.ok] :=
  ⟨rfl, rfl, by decide, rfl, rfl, _, rfl, rfl⟩

/-- TransmitStopsAtTheFirstFailure: the first and the last line operation of that TRANSMIT. -/
theorem witness_TransmitStopsAtTheFirstFailure :
    let c := cfgOf .lowMeansCommand .w1
    let n := lineCount (transmitEvents c (some 0x2A#32) (some [0xD7#8]))
    (0 < n ∧ (idle c (failsAt 1)).bus.answers = List.replicate 0 true ++ false :: []) ∧
    63 < n ∧ (idle c (failsAt 64)).bus.answers = List.replicate 63 true ++ false :: [] :=
  ⟨⟨by decide, rfl⟩, by decide, rfl⟩

/-- EmptyTransmitTouchesNothing, TransmitOperandsThatMeanTheSame, TransmitIsItsFramesStepByStep: a negative command and less
than one word; the largest command. -/
theorem witness_EmptyTransmitTouchesNothing :
    (idle { cfg with paramBytes := .w2 } []).phase = .idle ∧ (0x80000000#32 : Word).toInt < 0 ∧
    ((some [0x11#8]).getD []).length < Width.w2.bytes ∧ 0 ≤ (0x7FFFFFFF#32 : Word).toInt ∧
    (idle cfg []).cfg = some cfg := by
  decide

/-- TeardownCompletes and TeardownStopsAtTheFirstFailure: with the keep flag and without. -/
theorem witness_TeardownCompletes :
    ((idle cfg (yes 3)).phase = .idle ∧ (idle cfg (yes 3)).cfg = some cfg ∧
      (idle cfg (yes 3)).bus.answers = List.replicate (if cfg.keepCs then 2 else 3) true ++ []) ∧
    (idle { cfg with keepCs := true } (yes 2)).bus.answers = List.replicate 2 true ++ [] ∧
    (2 < (if cfg.keepCs then 2 else 3) ∧ (idle cfg (failsAt 3)).bus.answers = List.replicate 2 true ++ false :: []) ∧
    (idle { cfg with keepCs := true } (failsAt 2)).bus.answers = List.replicate 1 true ++ false :: [] := by
  decide

/-- KeptCsStaysInactive: the keep flag, and an instance that meets the invariant. -/
theorem witness_KeptCsStaysInactive :
    Inv (idle { cfg with keepCs := true } (yes 2)) ∧ (idle { cfg with keepCs := true } (yes 2)).bus.ioFailed = false ∧
    ∃ t, exec .teardown (idle { cfg with keepCs := true } (yes 2)) = .next t := by
  refine ⟨?_, rfl, _, rfl⟩
  exact {
    ceiling := by show 1 ≤ 500000; decide
    configured := fun _ => ⟨{ cfg with keepCs := true }, rfl, ⟨by decide, by show 500000 ≤ 500000; decide, rfl, rfl⟩,
      _, _, _, rfl, by decide, by decide, by decide⟩
    unconfigured := fun h => absurd (.inl rfl) h
    unowned := fun h => nomatch (show Phase.idle = .uninitialized from h)
    rest := by rintro - - c hc; cases hc; exact ⟨rfl, rfl, rfl⟩
    quiet := fun _ => ⟨rfl, rfl, rfl⟩
    buffer := by show Memory.wf [] = true; decide
    requests := by intro c hc r hr; cases hr
    failures := rfl }

/-- UnsupportedOperationsReturnNotSupported: a next state that hands over `NotSupported`. -/
theorem witness_UnsupportedOperationsReturnNotSupported :
    ∃ t, exec .txColor (idle cfg []) = .next t ∧ t.results = (idle cfg []).results ++ [.notSupported] :=
  ⟨_, rfl, rfl⟩

/-- ErrorsArePreciseInTheTrace: an `IoError` of each operation that has one. -/
theorem witness_ErrorsArePreciseInTheTrace :
    (∃ t, exec (.create opts) (fresh [true, false, true]) = .next t ∧ t.results = [] ++ [.ioError]) ∧
    (∃ t, exec (.transmit (some 1#32) none) (idle cfg [false]) = .next t ∧ t.results = [] ++ [.ioError]) ∧
    (∃ t, exec .teardown (idle cfg [false]) = .next t ∧ t.results = [] ++ [.ioError]) ∧
    (∃ t, exec (.frameCNW1 1#32) (inside cfg [] [false]) = .next t ∧ t.results = [] ++ [.ioError]) :=
  ⟨⟨_, rfl, rfl⟩, ⟨_, rfl, rfl⟩, ⟨_, rfl, rfl⟩, _, rfl, rfl⟩

/-- BufferReadsAsTheRulesSay: the last word of a buffer. -/
theorem witness_BufferReadsAsTheRulesSay : 1 * 2 + 2 ≤ [1#8, 2#8, 3#8, 4#8, 5#8].length := by
  decide

end Sys2Proof.Tests
end

section
/-! SUPPORT. The statements about the state (10_state.md): what every instruction and every step keeps. Laws/Step.lean says
once what a step can do (`Effect`, `step_cases`); each claim here is a case analysis of it. -/

namespace Sys2Proof.Machine

variable {s t : State} {i : Instr} {c : BusConfig}

/-! ## What each host operation leaves

Beside the named cases of an effect, the others are of other instructions. -/

/-- A CREATE that ends was issued in `Uninitialized`, and has rejected its options, latched them, or been unwound
(R211 to R214). -/
theorem Effect.of_create {o : Options} (h : Effect s (.create o) t) :
    s.phase = .uninitialized ∧
    (t = raise .createInvalid s ∨ (∃ d b, t = reply .ok { latchOptions d s with bus := b, phase := .idle }) ∨
    ∃ b, t = raise .createIo { s with bus := b }) := by
  cases h with
  | createInvalid _ _ hp => exact ⟨hp, .inl rfl⟩
  | createOk _ d _ _ hp => exact ⟨hp, .inr (.inl ⟨d, _, rfl⟩)⟩
  | createFails _ _ _ _ _ _ hp => exact ⟨hp, .inr (.inr ⟨_, rfl⟩)⟩
  | _ => simp_all

/-- A TRANSMIT that ends has changed the lines and ended with a result (R215, R219). -/
theorem Effect.of_transmit {cmd : Option Word} {ps : Option (List Byte)} (h : Effect s (.transmit cmd ps) t) :
    ∃ b r, t = afterTransmit s b r := by
  cases h with
  | transmitOk => exact ⟨_, _, rfl⟩
  | transmitFails => exact ⟨_, _, rfl⟩
  | _ => simp_all

/-- A TEARDOWN that ends has changed the lines and given up the configuration (R221, R223). -/
theorem Effect.of_teardown (h : Effect s .teardown t) : ∃ b r, t = afterTeardown s b r := by
  cases h with
  | teardownOk => exact ⟨_, _, rfl⟩
  | teardownFails => exact ⟨_, _, rfl⟩
  | _ => simp_all

/-- An unsupported operation that ends was issued in `Idle` and has handed over its result (R253). -/
theorem Effect.of_unsupported (h : Effect s i t) (hi : i = .rxParam ∨ i = .txColor ∨ i = .registerCallbacks) :
    s.phase = .idle ∧ t = raise .unsupported s := by
  cases h with
  | unsupported _ hp => exact ⟨hp, rfl⟩
  | _ => rcases hi with rfl | rfl | rfl <;> simp_all

/-! ## What every step keeps -/

/-- A step performs events on the lines, and leaves the platform. -/
theorem step_bus (h : step s = .next t) : t.plat = s.plat ∧ ∃ es rest, t.bus = busAfter s.bus es rest := by
  rcases step_cases h with ⟨-, i, q, -, he⟩ | ⟨-, -, rfl⟩ | ⟨-, c, r, q, v, -, -, -, he⟩
  · obtain ⟨hb, -, hl⟩ := he.bus
    exact ⟨hl, hb⟩
  · exact ⟨rfl, [], s.bus.answers, (busAfter_nil s.bus).symm⟩
  · obtain ⟨hb, -, hl⟩ := he.bus
    simp only [State.setIndex_bus, State.setIndex_plat] at hb hl
    exact ⟨hl, hb⟩

/-- The rows of the phase table (R22), with the model's step size (logs 8, 32). -/
def PhaseMove (p q : Phase) : Prop :=
  (p = .uninitialized ∧ (q = .uninitialized ∨ q = .idle)) ∨
  (p = .idle ∧ (q = .idle ∨ q = .released)) ∨
  (p = .transacting ∧ (q = .transacting ∨ q = .idle))

theorem Effect.phaseMove (h : Effect s i t) : PhaseMove s.phase t.phase := by
  cases h with
  | createInvalid _ _ hp => exact .inl ⟨hp, .inl hp⟩
  | createOk _ _ _ _ hp => exact .inl ⟨hp, .inr rfl⟩
  | createFails _ _ _ _ _ _ hp => exact .inl ⟨hp, .inl rfl⟩
  | transmitOk _ _ _ _ _ hp => exact .inr (.inl ⟨hp, .inl rfl⟩)
  | transmitFails _ _ _ _ _ _ hp => exact .inr (.inl ⟨hp, .inl rfl⟩)
  | teardownOk _ _ _ hp => exact .inr (.inl ⟨hp, .inr rfl⟩)
  | teardownFails _ _ _ _ hp => exact .inr (.inl ⟨hp, .inr rfl⟩)
  | unsupported _ hp => exact .inr (.inl ⟨hp, .inl hp⟩)
  | frameOk _ _ _ _ _ hp => exact .inr (.inr ⟨hp, .inl hp⟩)
  | frameFails _ _ _ _ _ _ hp => exact .inr (.inr ⟨hp, .inr rfl⟩)

theorem step_phaseMove (h : step s = .next t) : PhaseMove s.phase t.phase := by
  rcases step_cases h with ⟨-, i, q, -, he⟩ | ⟨hp, -, rfl⟩ | ⟨-, c, r, q, v, -, -, -, he⟩
  · exact he.phaseMove
  · exact .inr (.inr ⟨hp, .inr rfl⟩)
  · simpa using he.phaseMove

/-- Only CREATE and TEARDOWN write the configuration or a binding: the one runs in `Uninitialized` only, the other ends in
`Released` (R33). -/
theorem Effect.configuration_kept (h : Effect s i t) (hs : hasInstance s) (ht : t.phase ≠ .released) :
    t.cfg = s.cfg ∧ t.bind = s.bind := by
  have hu : s.phase ≠ .uninitialized := by rcases hs with hs | hs <;> simp [hs]
  cases h with
  | createInvalid _ _ hp => exact absurd hp hu
  | createOk _ _ _ _ hp => exact absurd hp hu
  | createFails _ _ _ _ _ _ hp => exact absurd hp hu
  | teardownOk => exact absurd rfl ht
  | teardownFails => exact absurd rfl ht
  | _ => exact ⟨rfl, rfl⟩

theorem step_configuration_kept (h : step s = .next t) (hs : hasInstance s) (ht : t.phase ≠ .released) :
    t.cfg = s.cfg ∧ t.bind = s.bind := by
  rcases step_cases h with ⟨-, i, q, -, he⟩ | ⟨-, -, rfl⟩ | ⟨-, c, r, q, v, -, -, -, he⟩
  · exact he.configuration_kept hs ht
  · exact ⟨rfl, rfl⟩
  · simpa using he.configuration_kept (by simpa [hasInstance] using hs) ht

/-! ## The lines -/

/-- A frame leaves the lines at rest, wherever it found them (R197, R200). -/
theorem frame_rest (c : BusConfig) (k : FrameKind) (v : Word) (p : Lines PinState) :
    atRest c (pinsAfter p (frameEvents c k v)) := by
  rw [frameEvents, pinsAfter_append]
  exact close_rest c _

/-- Frames keep the lines at rest. -/
theorem frames_rest (c : BusConfig) (fs : List (FrameKind × Word)) : ∀ p : Lines PinState, atRest c p →
    atRest c (pinsAfter p (fs.flatMap fun f => frameEvents c f.1 f.2)) := by
  induction fs with
  | nil => exact fun _ hp => hp
  | cons f fs ih =>
    intro p _
    rw [List.flatMap_cons, pinsAfter_append]
    exact ih _ (frame_rest c f.1 f.2 p)

/-- A failed CREATE leaves no line an output: a line it configured is released, the failing one is not known, and the others
are as they were (R213). -/
theorem createFails_no_output {p : Lines PinState} (hp : ∀ l, (p.get l).isOutput = false) (c : BusConfig) {k : Nat} (hk : k < 6)
    {us : List Bool} (hu : us.length = (unwoundLines k).length) (l : Line) :
    ((pinsAfter p (failAt k (createEvents c) ++ releaseEvents (unwoundLines k) us)).get l).isOutput = false := by
  rw [pinsAfter_append]
  by_cases hl : l ∈ unwoundLines k
  · exact releases_same _ us _ l hu hl
  · rw [releases_other _ us _ l hl]
    match k, l with
    | 0, .cs | 1, .scl | 2, .sda => rfl
    | 0, .scl => exact hp .scl
    | 0, .sda | 1, .sda => exact hp .sda
    | 1, .cs | 2, .cs | 2, .scl => simp [unwoundLines] at hl
    | k + 3, l => cases l <;> simp [unwoundLines] at hl

/-- `io_failed` goes on saying whether the trace holds a failed operation (R38). -/
theorem busAfter_failures {b : Bus} (h : b.ioFailed = b.trace.any isFailed) (es : List Event) (rest : List Bool) :
    (busAfter b es rest).ioFailed = (busAfter b es rest).trace.any isFailed := by
  simp [busAfter, h]

/-- After a waveform cut short, `io_failed` is set. -/
theorem busAfter_failAt_ioFailed (b : Bus) {es : List Event} {k : Nat} (hk : k < lineCount es) (rest : List Bool) :
    (busAfter b (failAt k es) rest).ioFailed = true := by
  simp [busAfter, failAt_any_failed hk]

/-- Without a failure after them there was none before them. -/
theorem ioFailed_of_busAfter {b : Bus} {es : List Event} {rest : List Bool} (h : (busAfter b es rest).ioFailed = false) :
    b.ioFailed = false :=
  (Bool.or_eq_false_iff.mp h).1

/-! ## The buffer -/

/-- The word of a request that lies in a canonical buffer can be read (R61, R68). -/
theorem frameWord_of_requestInBuffer {m : Memory} (hm : Memory.wf m = true) {r : FrameReq} (hr : requestInBuffer c m r) :
    ∃ v, frameWord c m r = some v := by
  cases r with
  | command v => exact ⟨_, rfl⟩
  | parameter i =>
    rw [eq_loadBuffer_of_wf hm]
    exact ⟨_, frameWord_parameter c _ i (by simpa [requestInBuffer] using hr)⟩

/-! ## The invariant -/

/-- The invariant of a state in `Uninitialized` or `Released` (R21, R44). -/
theorem inv_without_instance (hl : 1 ≤ t.plat.clkMaxHz) (hp : ¬ hasInstance t) (hc : t.cfg = none ∧ t.bind = unbound)
    (ho : t.phase = .uninitialized → ∀ l, (t.bus.pin.get l).isOutput = false)
    (hq : t.work = Work.empty ∧ t.mem = [] ∧ t.todo = []) (hf : t.bus.ioFailed = t.bus.trace.any isFailed) : Inv t where
  ceiling := hl
  configured h := absurd h hp
  unconfigured _ := hc
  unowned := ho
  rest h := absurd h hp
  quiet _ := hq
  buffer := by rw [hq.2.1]; exact memory_wf_nil
  requests c h := by simp [hc.1] at h
  failures := hf

/-- The invariant of a state in `Idle`. -/
theorem inv_idle (hl : 1 ≤ t.plat.clkMaxHz) (hp : t.phase = .idle) (hc : t.cfg = some c) (hv : ConfigSound t.plat c)
    (hb : boundApart t.bind) (hr : t.bus.ioFailed = false → atRest c t.bus.pin)
    (hq : t.work = Work.empty ∧ t.mem = [] ∧ t.todo = []) (hf : t.bus.ioFailed = t.bus.trace.any isFailed) : Inv t where
  ceiling := hl
  configured _ := ⟨c, hc, hv, hb⟩
  unconfigured h := absurd (.inl hp) h
  unowned h := by simp [hp] at h
  rest _ h _ hc' := by
    cases hc.symm.trans hc'
    exact hr h
  quiet _ := hq
  buffer := by rw [hq.2.1]; exact memory_wf_nil
  requests c _ r hr := by simp [hq.2.2] at hr
  failures := hf

/-- The host's list and the results are no part of the invariant. -/
theorem Inv.of_host_side (hs : Inv s) (q : List Instr) (rs : List Result) : Inv { s with pending := q, results := rs } :=
  { hs with }

/-- Taking up the next frame of a TRANSMIT keeps the invariant. -/
theorem Inv.of_nextFrame (hs : Inv s) (hp : s.phase = .transacting) {r : FrameReq} {rest : List FrameReq}
    (ht : s.todo = r :: rest) : Inv (State.setIndex { s with todo := rest } r) := by
  have hr : ∀ c, s.cfg = some c → ∀ x ∈ rest, requestInBuffer c s.mem x := fun c hc x hx =>
    hs.requests c hc x (by simp [ht, hx])
  cases r <;> exact { hs with quiet := fun h => absurd hp h, requests := hr }

/-- The end of a TRANSMIT keeps the invariant, where the lines are at rest unless an operation failed. -/
theorem Inv.of_afterTransmit (hs : Inv s) (hi : hasInstance s) {b : Bus} (hf : b.ioFailed = b.trace.any isFailed)
    (hr : b.ioFailed = false → ∀ c, s.cfg = some c → atRest c b.pin) (r : Result) : Inv (afterTransmit s b r) := by
  obtain ⟨c, hc, hv, hb⟩ := hs.configured hi
  exact inv_idle hs.ceiling rfl hc hv hb (fun h => hr h c hc) ⟨rfl, rfl, rfl⟩ hf

/-- The end of a TEARDOWN keeps the invariant. -/
theorem Inv.of_afterTeardown (hs : Inv s) (hp : s.phase = .idle) {b : Bus} (hf : b.ioFailed = b.trace.any isFailed) (r : Result) :
    Inv (afterTeardown s b r) := by
  refine inv_without_instance hs.ceiling ?_ ⟨rfl, rfl⟩ (fun h => nomatch h) (hs.quiet (by simp [hp])) hf
  rintro (h | h) <;> cases h

/-- Whatever an instruction does keeps the invariant. -/
theorem Effect.keeps_inv (h : Effect s i t) (hs : Inv s) : Inv t := by
  have hf := busAfter_failures hs.failures
  cases h with
  | createInvalid => exact hs.of_host_side _ _
  | createOk o d rest _ hp hd ha =>
    obtain ⟨hv, hc, -⟩ := decodeOptions_some hd
    have hn : ¬ (d.cs = d.scl ∨ d.cs = d.sda ∨ d.scl = d.sda) := by simp [← pinsAliased_iff, ha]
    simp only [not_or] at hn
    exact inv_idle hs.ceiling rfl rfl (decodedFrom_sound hs.ceiling hv hc) ⟨d.cs, d.scl, d.sda, rfl, hn⟩
      (fun _ => create_rest d.cfg _) (hs.quiet (by simp [hp])) (hf _ _)
  | createFails o d k us rest _ hp _ _ hk hu =>
    refine inv_without_instance hs.ceiling ?_ ⟨rfl, rfl⟩ (fun _ => createFails_no_output (hs.unowned hp) d.cfg hk hu)
      (hs.quiet (by simp [hp])) (hf _ _)
    rintro (h | h) <;> cases h
  | transmitOk cmd ps c rest _ hp hc =>
    refine hs.of_afterTransmit (.inl hp) (hf _ _) (fun h c' hc' => ?_) .ok
    cases hc.symm.trans hc'
    exact frames_rest c _ _ (hs.rest (.inl hp) (ioFailed_of_busAfter h) c hc)
  | transmitFails cmd ps c k rest _ hp _ hk =>
    exact hs.of_afterTransmit (.inl hp) (hf _ _) (by simp [busAfter_failAt_ioFailed _ hk]) .ioError
  | teardownOk c rest _ hp => exact hs.of_afterTeardown hp (hf _ _) .ok
  | teardownFails c k rest _ hp => exact hs.of_afterTeardown hp (hf _ _) .ioError
  | unsupported => exact hs.of_host_side _ _
  | frameOk k c v rest _ hp hc =>
    exact { hs with
      unowned := fun h => by simp [hp] at h
      rest := fun _ _ c' hc' => by
        cases hc.symm.trans hc'
        exact frame_rest c k v _
      quiet := fun h => absurd hp h
      failures := hf _ _ }
  | frameFails k c v j rest _ hp _ hj =>
    exact hs.of_afterTransmit (.inr hp) (hf _ _) (by simp [busAfter_failAt_ioFailed _ hj]) .ioError

theorem step_keeps_inv (hs : Inv s) (h : step s = .next t) : Inv t := by
  rcases step_cases h with ⟨-, i, q, -, he⟩ | ⟨hp, -, rfl⟩ | ⟨hp, c, r, q, v, -, ht, -, he⟩
  · exact he.keeps_inv (hs.of_host_side q s.results)
  · exact hs.of_afterTransmit (.inr hp) hs.failures (fun h => hs.rest (.inr hp) h) .ok
  · exact he.keeps_inv (hs.of_nextFrame hp ht)

/-! ## Faults -/

/-- An operation that ends however its line operations go has a next state. -/
theorem next_of_performs {f : Flow Bus} {x : Host.Outcome State Fault Refusal} {g k : Bus → State}
    (h : (∀ b, f = .ok b → x = .next (g b)) ∧ (∀ b, f = .ioError b → x = .next (k b))) : ∃ t, x = .next t := by
  cases f with
  | ok b => exact ⟨_, h.1 b rfl⟩
  | ioError b => exact ⟨_, h.2 b rfl⟩

/-- An instruction faults only where `Idle` or `Transacting` has no configuration (R44). -/
theorem exec_ne_fault (hc : hasInstance s → ∃ c, s.cfg = some c) (f : Fault) : exec i s ≠ .fault f := by
  intro h
  rcases instr_cases i with ⟨o, rfl⟩ | ⟨cmd, ps, rfl⟩ | rfl | hi | ⟨k, p, w, v, rfl⟩
  · replace h : execCreate o s = .fault f := h
    rcases execCreate_cases o s with ⟨-, he⟩ | ⟨-, -, he⟩ | ⟨-, d, -, ⟨-, he⟩ | ⟨-, he⟩⟩ <;> rw [he] at h <;> cases h
  · replace h : execTransmit cmd ps s = .fault f := h
    by_cases hp : s.phase = .idle
    · obtain ⟨c, hc⟩ := hc (.inl hp)
      obtain ⟨t, ht⟩ := next_of_performs (execTransmit_eq hp hc cmd ps)
      rw [ht] at h
      cases h
    · simp [execTransmit, hp] at h
  · replace h : execTeardown s = .fault f := h
    by_cases hp : s.phase = .idle
    · obtain ⟨c, hc⟩ := hc (.inl hp)
      obtain ⟨t, ht⟩ := next_of_performs (execTeardown_eq hp hc)
      rw [ht] at h
      cases h
    · simp [execTeardown, hp] at h
  · obtain ⟨m, hm⟩ : ∃ m, exec i s = notSupported m s := by rcases hi with rfl | rfl | rfl <;> exact ⟨_, rfl⟩
    rw [hm, notSupported] at h
    split at h <;> cases h
  · obtain ⟨m, hm⟩ := exec_frameInstr k p w v s
    rw [hm] at h
    by_cases hp : s.phase = .transacting
    · obtain ⟨c, hc⟩ := hc (.inr hp)
      by_cases hf : c.dcPolicy = p ∧ c.bytes k = w <;> simp [runFrame, hp, hc, hf] at h
    · simp [runFrame, hp] at h

/-- A step from a state that meets the invariant runs its instruction on one that meets it, and is never stuck. -/
theorem Inv.fetch_not_stuck (hs : Inv s) :
    (∃ i s', fetch s = .run i s' ∧ Inv s') ∨ fetch s = .finish ∨ fetch s = .ended := by
  unfold fetch
  by_cases hp : s.phase = .transacting
  · rw [if_pos hp]
    rcases ht : s.todo with _ | ⟨r, rest⟩
    · exact .inr (.inl rfl)
    · obtain ⟨c, hc, -⟩ := hs.configured (.inr hp)
      obtain ⟨v, hv⟩ := frameWord_of_requestInBuffer hs.buffer (hs.requests c hc r (by simp [ht]))
      exact .inl ⟨_, _, by simp only [hc, fetchFrame, hv]; rfl, hs.of_nextFrame hp ht⟩
  · rw [if_neg hp]
    rcases s.pending with _ | ⟨i, rest⟩
    · exact .inr (.inr rfl)
    · exact .inl ⟨i, _, rfl, hs.of_host_side rest s.results⟩

theorem step_ne_fault (hs : Inv s) (f : Fault) : step s ≠ .fault f := by
  rcases hs.fetch_not_stuck with ⟨i, s', hr, hs'⟩ | hr | hr <;> simp only [step, hr]
  · exact exec_ne_fault (fun hi => (hs'.configured hi).imp fun _ h => h.1) f
  · nofun
  · nofun

end Sys2Proof.Machine

/-! ## The obligations -/

open Sys2Proof Sys2Proof.Machine

/-- Settles O3: the case analysis of `Effect.keeps_inv`, after what the step itself changes. -/
theorem everyStepKeepsInvariant : Obligations.EveryStepKeepsInvariant :=
  fun _ _ => step_keeps_inv

/-- Settles O5: a step performs events on the lines (`Effect.bus`). -/
theorem stepsAppendEventsAndPinsFollowThem : Obligations.StepsAppendEventsAndPinsFollowThem := by
  intro s t h
  obtain ⟨hl, es, rest, hb⟩ := step_bus h
  exact ⟨hl, es, busAfter_append_of hb⟩

/-- Settles O4: the invariant gives each operation its configuration and every request its word. -/
theorem invariantStatesNeverFault : Obligations.InvariantStatesNeverFault :=
  fun _ f hs => step_ne_fault hs f

/-- Settles O6, by the guards of the two operations that write the configuration. -/
theorem configurationIsImmutable : Obligations.ConfigurationIsImmutable :=
  fun _ _ hs h ht => step_configuration_kept h hs ht

/-- Settles O7, by what each operation leaves. -/
theorem phasesMoveAsTheTableSays : Obligations.PhasesMoveAsTheTableSays := by
  refine ⟨fun s t => step_phaseMove, fun o s t h => ?_, fun cmd ps s t h => ?_, fun s t h => ?_, fun i s t hi h => ?_⟩
  · obtain ⟨hp, rfl | ⟨d, b, rfl⟩ | ⟨b, rfl⟩⟩ := (exec_effect h).of_create
    · exact .inr ⟨by simp [raise], hp⟩
    · exact .inl ⟨rfl, rfl⟩
    · exact .inr ⟨by simp [raise], rfl⟩
  · obtain ⟨b, r, rfl⟩ := (exec_effect h).of_transmit
    rfl
  · obtain ⟨b, r, rfl⟩ := (exec_effect h).of_teardown
    rfl
  · obtain ⟨hp, rfl⟩ := (exec_effect h).of_unsupported hi
    exact hp

/-- Settles O53, by what each operation leaves. -/
theorem hostOperationsChangeNothingElse : Obligations.HostOperationsChangeNothingElse := by
  intro i s t h
  obtain ⟨-, hq, hl⟩ := (exec_effect h).bus
  refine ⟨hq, hl, ?_, ?_⟩
  · rintro (⟨o, rfl⟩ | rfl)
    · obtain ⟨-, rfl | ⟨d, b, rfl⟩ | ⟨b, rfl⟩⟩ := (exec_effect h).of_create <;> exact ⟨rfl, rfl, fun _ => rfl⟩
    · obtain ⟨b, r, rfl⟩ := (exec_effect h).of_teardown
      exact ⟨rfl, rfl, fun _ => rfl⟩
  · rintro ⟨cmd, ps, rfl⟩
    obtain ⟨b, r, rfl⟩ := (exec_effect h).of_transmit
    exact ⟨rfl, rfl, rfl, rfl, fun _ => rfl⟩

/-- Settles O1: the fields of `State.reset`, read off. -/
theorem resetHoldsNothing : Obligations.ResetHoldsNothing :=
  ⟨rfl, rfl, rfl, rfl, rfl, rfl, rfl⟩

/-- Settles O2: reset is unconfigured, and its pins are no outputs. -/
theorem resetMeetsInvariant : Obligations.ResetMeetsInvariant := by
  refine inv_without_instance (Nat.le_add_left 1 _) ?_ ⟨rfl, rfl⟩ (fun _ l => by cases l <;> rfl) ⟨rfl, rfl, rfl⟩ rfl
  rintro (h | h) <;> cases h

/-- Settles O37: valid options decode to the bindings their lines are bound as, and two of these are equal. -/
theorem aliasedPinsAreRefused : Obligations.AliasedPinsAreRefused := by
  intro o s x y z hp hv hx hy hz he
  obtain ⟨d, hd⟩ := decodeOptions_of_valid hv
  obtain ⟨-, -, hcs, hscl, hsda⟩ := decodeOptions_some hd
  obtain rfl := boundAs_unique hx hcs
  obtain rfl := boundAs_unique hy hscl
  obtain rfl := boundAs_unique hz hsda
  show execCreate o s = _
  simp [execCreate, hp, hd, (pinsAliased_iff d).mpr he]

end

section
/-! SUPPORT. The statements about memory and words (20_memory.md): what the receiver reads back of a frame, which operands of a
TRANSMIT mean the same, and how the buffer space reads. The wire is Laws/Sampler.lean and Laws/Wire.lean, the buffer space
Laws/Memory.lean. -/

namespace Sys2Proof.Machine

/-! ## Operands of a TRANSMIT -/

/-- Of its operands, a TRANSMIT depends on the events they stand for only (R215). -/
theorem execTransmit_congr {s : State} {cmd cmd' : Option Word} {ps ps' : Option (List Byte)}
    (h : ∀ c, s.cfg = some c → transmitEvents c cmd ps = transmitEvents c cmd' ps') :
    execTransmit cmd ps s = execTransmit cmd' ps' s := by
  by_cases hp : s.phase = .idle
  · cases hc : s.cfg with
    | none => simp [execTransmit, hp, hc]
    | some c =>
      obtain ⟨hok, hfail⟩ := execTransmit_eq hp hc cmd ps
      obtain ⟨hok', hfail'⟩ := execTransmit_eq hp hc cmd' ps'
      rw [h c hc] at hok hfail
      cases hb : perform (transmitEvents c cmd' ps') s.bus with
      | ok b => rw [hok b hb, hok' b hb]
      | ioError b => rw [hfail b hb, hfail' b hb]
  · simp [execTransmit, hp]

/-- A negative command has no word to send (R216, D8). -/
theorem commandWord_of_neg {v : Word} (h : v.toInt < 0) : commandWord (some v) = none :=
  if_neg (Int.not_le.mpr h)

theorem commandWord_of_nonneg {v : Word} (h : 0 ≤ v.toInt) : commandWord (some v) = some v :=
  if_pos h

/-- Cutting a word to a width leaves it not negative: its value does not rise. -/
theorem truncate_nonneg (w : Width) {v : Word} (h : 0 ≤ v.toInt) : 0 ≤ (truncate w v).toInt := by
  have hle : (truncate w v).toNat ≤ v.toNat := by
    rw [truncate, BitVec.toNat_ofNat]
    exact (Nat.mod_le _ _).trans (Nat.mod_le _ _)
  rw [BitVec.toInt_eq_toNat_cond] at h ⊢
  split at h <;> split <;> omega

/-- The words of a TRANSMIT depend on the command through `commandWord` only (R216). -/
theorem transmitEvents_of_commandWord {cmd cmd' : Option Word} (h : commandWord cmd = commandWord cmd') (c : BusConfig)
    (ps : Option (List Byte)) : transmitEvents c cmd ps = transmitEvents c cmd' ps := by
  simp only [transmitEvents, transmitWords, h]

/-- A command that is sent has the events of its low `8*W` bits (R105). -/
theorem transmitEvents_truncate (c : BusConfig) {v : Word} (h : 0 ≤ v.toInt) (ps : Option (List Byte)) :
    transmitEvents c (some (truncate c.cmdBytes v)) ps = transmitEvents c (some v) ps := by
  have hf : frameEvents c .command (truncate c.cmdBytes v) = frameEvents c .command v := frameEvents_truncate c .command v
  simp [transmitEvents, transmitWords, commandWord_of_nonneg h, commandWord_of_nonneg (truncate_nonneg c.cmdBytes h), hf]

/-! ## Recorded words -/

/-- The sampler records one bit string of a frame: its bits (R112, R200). -/
theorem recorded_frameEvents (c : BusConfig) (k : FrameKind) (v : Word) :
    recorded c (frameEvents c k v) = some [c.frameBits k v] := by
  rw [recorded, sample_frame c k v Sampler.start rfl]
  rfl

end Sys2Proof.Machine

/-! ## The obligations -/

open Sys2Proof Sys2Proof.Machine

/-- Settles O33: the sampler records the frame's bits, and these decode to the word cut to its width. -/
theorem recordedWordsReadBack : Obligations.RecordedWordsReadBack :=
  fun c k v => ⟨c.frameBits k v, recorded_frameEvents c k v, decodeFrame_frameBits k c.dcPolicy (c.bytes k) c.lsbFirst v⟩

/-- Settles O45: in each case the two operands stand for the same events. -/
theorem transmitOperandsThatMeanTheSame : Obligations.TransmitOperandsThatMeanTheSame := by
  refine fun s => ⟨fun cmd => ?_, fun v ps hv => ?_, fun v ps c hc hv => ?_⟩
  · exact execTransmit_congr fun _ _ => rfl
  · exact execTransmit_congr fun c _ => transmitEvents_of_commandWord (commandWord_of_neg hv) c ps
  · refine execTransmit_congr fun c' hc' => ?_
    cases hc.symm.trans hc'
    exact (transmitEvents_truncate c hv ps).symm

/-- Settles O54, by the laws of the buffer space; `sumBytes` is the sum of the statement. -/
theorem bufferReadsAsTheRulesSay : Obligations.BufferReadsAsTheRulesSay := by
  refine fun bytes => ⟨memory_wf_loadBuffer bytes, fun a => ?_, fun i w h => readWord_loadBuffer bytes (i * w) w h⟩
  rw [memRead_loadBuffer, getElem?_def]

end

section
/-! SUPPORT. The statements about encodings (30_encoding.md): the bits of a frame and the clock edges that carry them, decoder
and encoder, the configuration a CREATE latches, and what runs after a table word is placed. The laws of the wire are
Laws/Wire.lean, CREATE's decoding is Laws/Create.lean. -/

namespace Sys2Proof

open Sys2Proof.Machine

/-! ## Decoder and encoder -/

/-- The decoder undoes the encoder: a frame's word comes back cut to its width, and a word that fits is not cut (R105). -/
theorem decode_encode (lsbFirst : Bool) {i : Instr} (h : i.wellFormed = true) : decode (encode lsbFirst i) = .instr i := by
  rcases instr_cases i with ⟨o, rfl⟩ | ⟨cmd, ps, rfl⟩ | rfl | (rfl | rfl | rfl) | ⟨k, p, w, v, rfl⟩
  case inr.inr.inr.inr =>
    rw [frameInstr_wellFormed] at h
    rw [encode_frameInstr]
    exact (decodeFrame_frameBits k p w lsbFirst v).trans (by rw [truncate_of_fits h])
  all_goals rfl

/-- A bit string that decodes is the frame of a word that fits its width (R65, R101 to R104). -/
theorem decodeFrame_instr {k : FrameKind} {p : DcPolicy} {w : Width} {lsbFirst : Bool} {bits : List Level} {i : Instr}
    (h : decodeFrame k p w lsbFirst bits = .instr i) :
    ∃ v, w.fits v = true ∧ i = frameInstr k p w v ∧ frameBits k p w lsbFirst v = bits := by
  unfold decodeFrame at h
  split_ifs at h with hlen hdc
  simp only [not_not] at hlen hdc
  cases h
  have hdrop : (bits.drop (dcBits k p).length).length = 8 * w.bytes := by
    rw [List.length_drop, hlen, dcBits_length, frameLength_eq, Nat.add_sub_cancel]
  obtain ⟨m, hm, hval, hbits⟩ := bytesBits_of_wireValue lsbFirst w.bytes _ 0 hdrop
  rw [Nat.zero_mul, Nat.zero_add] at hval
  rw [hval]
  have hcut : truncate w (BitVec.ofNat 32 m) = BitVec.ofNat 32 m := truncate_of_lt hm
  have hnat : (BitVec.ofNat 32 m).toNat = m := by
    have h32 : 2 ^ (8 * w.bytes) ≤ 2 ^ 32 := Nat.pow_le_pow_right (by decide) (by cases w <;> decide)
    rw [BitVec.toNat_ofNat, Nat.mod_eq_of_lt (lt_of_lt_of_le hm h32)]
  refine ⟨_, hcut ▸ fits_truncate w _, rfl, ?_⟩
  rw [frameBits, hbits _ (by rw [hnat, Nat.mod_eq_of_lt hm])]
  nth_rewrite 1 [← hdc]
  exact List.take_append_drop _ bits

/-! ## Where the bits of a frame stand -/

/-- An enabled frame is its discriminator and then the disabled frame (R101, R102). -/
theorem frameBits_of_enabled (k : FrameKind) {p : DcPolicy} (hp : p ≠ .disabled) (w : Width) (lsbFirst : Bool) (v : Word) :
    ∃ d, dcOf k p = some d ∧ frameBits k p w lsbFirst v = d :: frameBits k .disabled w lsbFirst v := by
  cases p with
  | disabled => exact absurd rfl hp
  | lowMeansCommand => cases k <;> exact ⟨_, rfl, rfl⟩
  | lowMeansData => cases k <;> exact ⟨_, rfl, rfl⟩

theorem byteBits_getElem? (lsbFirst : Bool) (b : Byte) {r : Nat} (hr : r < 8) :
    (byteBits lsbFirst b)[r]? = some (b.getLsbD (if lsbFirst then r else 7 - r)) := by
  cases lsbFirst <;> interval_cases r <;> rfl

theorem byteOf_getLsbD (v : Word) (k : Nat) {j : Nat} (hj : j < 8) : (byteOf v k).getLsbD j = v.getLsbD (8 * k + j) := by
  simp [byteOf, hj]

/-- Byte `K` of `n` bytes on the wire is byte `n-1-K` of the word (R63, R102). -/
theorem bytesBits_getElem? (lsbFirst : Bool) (v : Word) {n : Nat} : ∀ {K r : Nat}, K < n → r < 8 →
    (bytesBits lsbFirst v n)[8 * K + r]? = (byteBits lsbFirst (byteOf v (n - 1 - K)))[r]? := by
  induction n with
  | zero => exact fun hK _ => absurd hK (Nat.not_lt_zero _)
  | succ n ih =>
    intro K r hK hr
    have hlen := byteBits_length lsbFirst (byteOf v n)
    rw [bytesBits]
    cases K with
    | zero =>
      rw [List.getElem?_append_left (by omega)]
      simp
    | succ K =>
      rw [List.getElem?_append_right (by omega), hlen, show 8 * (K + 1) + r - 8 = 8 * K + r by omega, ih (by omega) hr,
        show n + 1 - 1 - (K + 1) = n - 1 - K by omega]

/-- The bits of a frame after its discriminator (R102). -/
theorem frameBits_getElem? (k : FrameKind) (p : DcPolicy) (w : Width) (lsbFirst : Bool) (v : Word) {K r : Nat}
    (hK : K < w.bytes) (hr : r < 8) :
    (frameBits k p w lsbFirst v)[(if p = .disabled then 0 else 1) + 8 * K + r]? =
      some (v.getLsbD (8 * (w.bytes - 1 - K) + (if lsbFirst then r else 7 - r))) := by
  have hj : (if lsbFirst then r else 7 - r) < 8 := by split <;> omega
  rw [frameBits, ← dcBits_length k p, Nat.add_assoc, List.getElem?_append_right (Nat.le_add_right _ _), Nat.add_sub_cancel_left,
    bytesBits_getElem? lsbFirst v hK hr, byteBits_getElem? lsbFirst _ hr, byteOf_getLsbD v _ hj]

end Sys2Proof

namespace Sys2Proof.Machine

/-! ## Clock edges -/

section
variable (c : BusConfig) (cur : Level) (es : List Event)

/-- One bit makes one active edge, wherever the clock was, and leaves it at the post-edge level (R110). -/
theorem activeEdges_bit (x : Level) :
    clockEdges c.preEdge c.postEdge cur (bitEvents c x ++ es) = 1 + clockEdges c.preEdge c.postEdge c.postEdge es := by
  simp [bitEvents, delayEvent, clockEdges, (postEdge_ne c).symm]

/-- One bit makes an edge back only where the clock was at the post-edge level. -/
theorem backEdges_bit (x : Level) :
    clockEdges c.postEdge c.preEdge cur (bitEvents c x ++ es) =
      (if cur = c.postEdge then 1 else 0) + clockEdges c.postEdge c.preEdge c.postEdge es := by
  simp [bitEvents, delayEvent, clockEdges, (postEdge_ne c).symm]

/-- Bits that start at the post-edge level make one edge each way per bit. -/
theorem edges_bits (xs : List Level) :
    clockEdges c.preEdge c.postEdge c.postEdge (xs.flatMap (bitEvents c) ++ es) =
      xs.length + clockEdges c.preEdge c.postEdge c.postEdge es ∧
    clockEdges c.postEdge c.preEdge c.postEdge (xs.flatMap (bitEvents c) ++ es) =
      xs.length + clockEdges c.postEdge c.preEdge c.postEdge es := by
  induction xs with
  | nil => simp
  | cons x xs ih =>
    obtain ⟨hactive, hback⟩ := ih
    rw [List.flatMap_cons, List.append_assoc, activeEdges_bit, backEdges_bit, hactive, hback, if_pos rfl, List.length_cons]
    omega

/-- The start of a frame sets the clock to the pre-edge level: no active edge, and an edge back from the post-edge level. -/
theorem edges_open :
    clockEdges c.preEdge c.postEdge cur (openEvents c ++ es) = clockEdges c.preEdge c.postEdge c.preEdge es ∧
    clockEdges c.postEdge c.preEdge cur (openEvents c ++ es) =
      (if cur = c.postEdge then 1 else 0) + clockEdges c.postEdge c.preEdge c.preEdge es := by
  simp [openEvents, delayEvent, clockEdges, (postEdge_ne c).symm]

/-- The end of a frame takes the clock from the post-edge level to its idle level: no active edge, and an edge back unless it
idles at the post-edge level. -/
theorem edges_close :
    clockEdges c.preEdge c.postEdge c.postEdge (closeEvents c) = 0 ∧
    clockEdges c.postEdge c.preEdge c.postEdge (closeEvents c) = if c.sclIdle = c.postEdge then 0 else 1 := by
  have hidle : (c.sclIdle = c.preEdge) ↔ ¬ (c.sclIdle = c.postEdge) := by
    cases c.sclIdle <;> cases hp : c.preEdge <;> simp [BusConfig.postEdge, hp]
  simp [closeEvents, delayEvent, clockEdges, postEdge_ne c, hidle]

end

/-- A frame's edges: the first bit comes with the clock at the pre-edge level, and of the two changes between the idle level
and the bits exactly one is an edge back (R110). -/
theorem edges_frame (c : BusConfig) (k : FrameKind) (v : Word) :
    clockEdges c.preEdge c.postEdge c.sclIdle (frameEvents c k v) = (c.frameBits k v).length ∧
    clockEdges c.postEdge c.preEdge c.sclIdle (frameEvents c k v) = (c.frameBits k v).length := by
  obtain ⟨x, xs, hx⟩ := List.exists_cons_of_ne_nil (frameBits_ne_nil c k v)
  obtain ⟨openActive, openBack⟩ := edges_open c c.sclIdle ((x :: xs).flatMap (bitEvents c) ++ closeEvents c)
  obtain ⟨bitsActive, bitsBack⟩ := edges_bits c (closeEvents c) xs
  obtain ⟨closeActive, closeBack⟩ := edges_close c
  rw [frameEvents, hx, List.append_assoc, openActive, openBack, List.flatMap_cons, List.append_assoc, activeEdges_bit,
    backEdges_bit, bitsActive, bitsBack, closeActive, closeBack, if_neg (postEdge_ne c).symm, List.length_cons]
  split <;> omega

/-! ## The configuration of a CREATE -/

/-- A CREATE that ends in `Idle` has latched what its options decode to (R211, R214). -/
theorem Effect.create_latches {o : Options} {s t : State} (h : Effect s (.create o) t) (ht : t.phase = .idle) :
    ∃ d, decodeOptions s.plat o = some d ∧ t.cfg = some d.cfg ∧
      t.bind = { cs := some d.cs, scl := some d.scl, sda := some d.sda } := by
  cases h with
  | createInvalid _ _ hp => exact nomatch hp.symm.trans ht
  | createOk _ d _ hi _ hd =>
    cases hi
    exact ⟨d, hd, rfl, rfl⟩
  | createFails => exact nomatch ht
  | _ => simp_all

/-- Whatever the oracle answered, a CREATE that ends in `Idle` has latched the configuration and the bindings the rules give
its options (R92 to R99). -/
theorem create_latches_decoded {o : Options} {s t : State} (h : exec (.create o) s = .next t) (ht : t.phase = .idle) :
    ∃ c x y z, t.cfg = some c ∧ DecodedFrom s.plat o c ∧ t.bind = { cs := some x, scl := some y, sda := some z } ∧
      BoundAs o.csLine x ∧ BoundAs o.sclLine y ∧ BoundAs o.sdaLine z := by
  obtain ⟨d, hd, hc, hb⟩ := (exec_effect h).create_latches ht
  obtain ⟨-, hfrom, hcs, hscl, hsda⟩ := decodeOptions_some hd
  exact ⟨d.cfg, d.cs, d.scl, d.sda, hc, hfrom, hb, hcs, hscl, hsda⟩

/-- The discriminators of both kinds follow from the two options (R28, R95). -/
theorem DecodedFrom.dc {p : Platform} {o : Options} {c : BusConfig} (h : DecodedFrom p o c) :
    c.dc .command = (if o.useDiscriminatorBit then some o.discriminatorLowMeansData else none) ∧
    c.dc .parameter = (if o.useDiscriminatorBit then some (!o.discriminatorLowMeansData) else none) := by
  rw [BusConfig.dc, BusConfig.dc, h.policy]
  cases o.useDiscriminatorBit <;> cases o.discriminatorLowMeansData <;> exact ⟨rfl, rfl⟩

/-- Without the discriminator its second option is not read (R95). -/
theorem decodeOptions_ignores_lowMeansData (p : Platform) {o : Options} (h : o.useDiscriminatorBit = false) (x : Bool) :
    decodeOptions p { o with discriminatorLowMeansData := x } = decodeOptions p o := by
  simp [decodeOptions, policyOption, h]

/-! ## Formats that are not selected -/

theorem exec_frame_not_selected {k : FrameKind} {p : DcPolicy} {w : Width} {s : State} {c : BusConfig}
    (hp : s.phase = .transacting) (hc : s.cfg = some c) (h : c.dcPolicy ≠ p ∨ c.bytes k ≠ w) (v : Word) :
    ∃ m, exec (frameInstr k p w v) s = .refused (.formatNotSelected m) := by
  obtain ⟨m, hm⟩ := exec_frameInstr k p w v s
  refine ⟨m, ?_⟩
  rw [hm, runFrame, if_neg (by simp [hp]), hc]
  exact if_neg (by tauto)

/-! ## Placed table words -/

/-- A word of two bytes or more stands for a command frame (log 10). -/
theorem tableFrame_some {plain withDc : Width} {w : Nat} {code : Code} (h : tableFrame plain withDc w = some code) :
    ∃ p wd bits, code = .wire .command p wd false bits := by
  unfold tableFrame at h
  split_ifs at h <;> cases h <;> exact ⟨_, _, _, rfl⟩

/-- A table word stands for a selector with its default operands, or for a command frame (log 10). -/
theorem tableCode_cases {nbits w : Nat} {code : Code} (h : tableCode nbits w = some code) :
    (∃ n, n < 8 ∧ code = .hostOp (BitVec.ofNat 3 n) (defaultOperands n)) ∨
    ∃ p wd bits, code = .wire .command p wd false bits := by
  unfold tableCode at h
  split at h
  · split_ifs at h with hsel
    · cases h
      exact .inl ⟨w, hsel, rfl⟩
    · cases h
      exact .inr ⟨_, _, _, rfl⟩
  · exact .inr (tableFrame_some h)
  · exact .inr (tableFrame_some h)
  · exact .inr (tableFrame_some h)
  · exact .inr (tableFrame_some h)
  · cases h

/-- What the decoder reads from a table word: a host operation with its default operands, or a command frame whose word fits
(log 10). -/
theorem decodeTableWord_cases {nbits w : Nat} {i : Instr} (h : decodeTableWord nbits w = some i) :
    i = .create defaultOptions ∨ i = .transmit none none ∨ i = .teardown ∨
    (i = .rxParam ∨ i = .txColor ∨ i = .registerCallbacks) ∨
    ∃ p wd v, wd.fits v = true ∧ i = frameInstr .command p wd v := by
  obtain ⟨code, hcode, hdec⟩ : ∃ code, tableCode nbits w = some code ∧ decode code = .instr i := by
    unfold decodeTableWord at h
    split at h
    · cases h
    · split at h <;> cases h
      exact ⟨_, ‹_›, ‹_›⟩
  rcases tableCode_cases hcode with ⟨n, hn, rfl⟩ | ⟨p, wd, bits, rfl⟩
  · interval_cases n <;> cases hdec <;> simp
  · obtain ⟨v, hv, rfl, -⟩ := decodeFrame_instr hdec
    exact .inr (.inr (.inr (.inr ⟨p, wd, v, hv, rfl⟩)))

/-- The step after placing a host operation runs it in the phase and the configuration it was placed with. -/
theorem step_placeHostOp {ph : Phase} (h : ph ≠ .transacting) (cfg : Option BusConfig) (i : Instr) (s : State) :
    step (placeHostOp ph cfg i s) = exec i { s with phase := ph, cfg := cfg } := by
  simp [step, fetch, placeHostOp, h]

theorem place_frameInstr (k : FrameKind) (p : DcPolicy) (w : Width) (v : Word) (s : State) :
    place (frameInstr k p w v) s = placeFrame k p w v s := by
  cases k <;> cases p <;> cases w <;> rfl

/-- The step after placing a command frame runs it inside a TRANSMIT whose configuration selects it. -/
theorem step_placeFrame_command (p : DcPolicy) {w : Width} {v : Word} (hv : w.fits v = true) (s : State) :
    step (placeFrame .command p w v s) = exec (frameInstr .command p w v)
      { s with
        phase := .transacting
        cfg := some { s.cfg.getD (placedConfig s.plat) with dcPolicy := p, cmdBytes := w } } := by
  simp [step, fetch, placeFrame, fetchFrame, frameWord, frameKind, truncate_of_fits hv, State.setIndex, BusConfig.bytes]

/-- The default options are valid on every platform and bind three different pins. -/
theorem exec_create_default_next {s : State} (hp : s.phase = .uninitialized) :
    ∃ t, exec (.create defaultOptions) s = .next t := by
  obtain ⟨d, hd, ha⟩ : ∃ d, decodeOptions s.plat defaultOptions = some d ∧ pinsAliased d = false := ⟨_, rfl, rfl⟩
  exact ⟨_, execCreate_eq hp hd ha⟩

theorem exec_transmit_next {s : State} (hp : s.phase = .idle) {c : BusConfig} (hc : s.cfg = some c) (cmd : Option Word)
    (ps : Option (List Byte)) : ∃ t, exec (.transmit cmd ps) s = .next t :=
  next_of_performs (execTransmit_eq hp hc cmd ps)

theorem exec_teardown_next {s : State} (hp : s.phase = .idle) {c : BusConfig} (hc : s.cfg = some c) :
    ∃ t, exec .teardown s = .next t :=
  next_of_performs (execTeardown_eq hp hc)

theorem exec_unsupported_next {s : State} (hp : s.phase = .idle) {i : Instr}
    (hi : i = .rxParam ∨ i = .txColor ∨ i = .registerCallbacks) : ∃ t, exec i s = .next t := by
  obtain ⟨m, hm⟩ : ∃ m, exec i s = notSupported m s := by rcases hi with rfl | rfl | rfl <;> exact ⟨_, rfl⟩
  exact ⟨_, by rw [hm, notSupported, if_neg (by simp [hp])]⟩

theorem exec_frame_next {s : State} (hs : s.phase = .transacting) {c : BusConfig} (hc : s.cfg = some c) {k : FrameKind}
    {p : DcPolicy} (hp : c.dcPolicy = p) {w : Width} (hw : c.bytes k = w) (v : Word) :
    ∃ t, exec (frameInstr k p w v) s = .next t := by
  subst hp hw
  exact next_of_performs (exec_frame_eq hs hc k v)

/-- The step after placing the instruction of a table word runs it, to a next state, with nothing but the phase and the
configuration set for it (log 12). -/
theorem step_place_tableWord {nbits w : Nat} {i : Instr} (h : decodeTableWord nbits w = some i) (s : State) :
    ∃ ph cfg, step (place i s) = exec i { s with phase := ph, cfg := cfg } ∧
      ∃ t, exec i { s with phase := ph, cfg := cfg } = .next t := by
  have uninitialized : Phase.uninitialized ≠ .transacting := by decide
  have idle : Phase.idle ≠ .transacting := by decide
  rcases decodeTableWord_cases h with rfl | rfl | rfl | hi | ⟨p, wd, v, hv, rfl⟩
  · exact ⟨_, _, step_placeHostOp uninitialized none _ s, exec_create_default_next rfl⟩
  · exact ⟨_, _, step_placeHostOp idle (some _) _ s, exec_transmit_next rfl rfl none none⟩
  · exact ⟨_, _, step_placeHostOp idle (some _) _ s, exec_teardown_next rfl rfl⟩
  · have hplace : place i s = placeHostOp .idle (some (s.cfg.getD (placedConfig s.plat))) i s := by
      rcases hi with rfl | rfl | rfl <;> rfl
    exact ⟨_, _, (congrArg step hplace).trans (step_placeHostOp idle (some _) i s), exec_unsupported_next rfl hi⟩
  · exact ⟨_, _, (congrArg step (place_frameInstr .command p wd v s)).trans (step_placeFrame_command p hv s),
      exec_frame_next (p := p) (w := wd) rfl rfl rfl rfl v⟩

end Sys2Proof.Machine

/-! ## The obligations -/

open Sys2Proof Sys2Proof.Machine

/-- Settles O11, by the frame's bits read back; a host operation's selector is looked up. -/
theorem decodingAnEncodingGivesTheInstruction : Obligations.DecodingAnEncodingGivesTheInstruction :=
  fun lsbFirst _ h => decode_encode lsbFirst h

/-- Settles O10: the default operands and the command frames are admitted where they are placed. -/
theorem placedTableWordRunsNext : Obligations.PlacedTableWordRunsNext := by
  intro s nbits w i h
  obtain ⟨ph, cfg, hstep, t, ht⟩ := step_place_tableWord h s
  have hplaced : s.withFetchWord nbits w = place i s := by rw [State.withFetchWord, h]
  exact ⟨{ s with phase := ph, cfg := cfg }, t, rfl, rfl, rfl, rfl, rfl, rfl, ht, by rw [hplaced, hstep, ht]⟩

/-- Settles O12: what decodes is the frame of a word that fits. -/
theorem decodedFramesEncodeBack : Obligations.DecodedFramesEncodeBack := by
  intro k p w lsbFirst bits i h
  obtain ⟨v, hv, rfl, hbits⟩ := decodeFrame_instr h
  exact ⟨by rw [frameInstr_wellFormed, hv], by rw [encode_frameInstr, encodeFrame, hbits]⟩

/-- Settles O15, byte by byte and then bit by bit. -/
theorem frameBitsStandWhereTheRuleSays : Obligations.FrameBitsStandWhereTheRuleSays := by
  intro k p w lsbFirst v K r hK hr
  refine ⟨frameBits_getElem? k p w lsbFirst v hK hr, fun hp => ?_⟩
  obtain ⟨d, hd, hb⟩ := frameBits_of_enabled k hp w lsbFirst v
  rw [hb, hd, List.getElem?_cons_zero]

/-- Settles O29: one edge each way per bit, from the frame's idle level and back to it. -/
theorem framesHaveOneActiveEdgePerBit : Obligations.FramesHaveOneActiveEdgePerBit := by
  intro c k v
  rw [← frameLength_eq, ← frameBits_length k c.dcPolicy (c.bytes k) c.lsbFirst v]
  exact edges_frame c k v

/-- Settles O38, by the fields of the latched configuration; the policy is the same without the ignored option. -/
theorem createLatchesPolicyOrderLevelAndFlag : Obligations.CreateLatchesPolicyOrderLevelAndFlag := by
  refine fun o s => ⟨fun t h ht => ?_, fun x hx => ?_⟩
  · obtain ⟨c, -, -, -, hc, hfrom, -⟩ := create_latches_decoded h ht
    obtain ⟨hcmd, hparam⟩ := hfrom.dc
    refine ⟨c, hc, ?_, hcmd, hparam, hfrom.bitOrder, hfrom.csLevel, hfrom.keep⟩
    rw [hfrom.policy]
    cases o.useDiscriminatorBit <;> cases o.discriminatorLowMeansData <;> rfl
  · show execCreate _ s = execCreate o s
    rw [execCreate, execCreate, decodeOptions_ignores_lowMeansData s.plat hx x]

/-- Settles O39: only a CREATE whose line operations succeeded ends in `Idle`. -/
theorem createLatchesTheDecodedOptions : Obligations.CreateLatchesTheDecodedOptions :=
  fun _ _ _ h ht => create_latches_decoded h ht

/-- Settles O13: the decoder run on each word. -/
theorem exampleWordsDecode : Obligations.ExampleWordsDecode :=
  ⟨rfl, rfl, rfl, rfl, rfl, rfl, rfl, rfl, rfl, rfl⟩

/-- Settles O14: the extra bit is the discriminator. -/
theorem frameLengthIsAsTheRuleSays : Obligations.FrameLengthIsAsTheRuleSays := by
  refine fun k w lsbFirst v => ⟨frameBits_length k .disabled w lsbFirst v, fun p hp => ⟨?_, ?_⟩⟩
  · rw [frameBits_length, frameLength_eq, if_neg hp]
  · obtain ⟨d, -, hb⟩ := frameBits_of_enabled k hp w lsbFirst v
    exact ⟨d, hb⟩

/-- Settles O16: `dcBits` reads the kind and the policy only, and a disabled one is empty for both kinds. -/
theorem discriminatorDependsOnKindAndPolicyOnly : Obligations.DiscriminatorDependsOnKindAndPolicyOnly :=
  fun _ _ _ => ⟨rfl, rfl, rfl, rfl, rfl⟩

/-- Settles O27, by the guard the 24 formats share. -/
theorem unselectedFormatsAreRefused : Obligations.UnselectedFormatsAreRefused :=
  fun _ _ _ v _ _ hp hc h => exec_frame_not_selected hp hc h v

end

section
/-! SUPPORT. The statements about line operations (40_line_ops.md): one law of the shared operation `lineOp` (R130), and where
each of the three moves the driver of its line (R131, R133, R135). -/

namespace Sys2Proof.Machine

/-! ## Drivers -/

/-- Of a line's earlier driver, a LINE_SET only asks whether it is an output (R133). -/
theorem PinState.isOutput_iff (p : PinState) : p.isOutput = true ↔ p = .out0 ∨ p = .out1 ∨ p = .outX := by
  cases p <;> simp [PinState.isOutput]

theorem pinAfter_cfgOut (l : Line) (ok : Bool) (p : PinState) :
    pinAfter (.cfgOut l) ok p = if ok then .outX else .unknown := by
  cases ok <;> rfl

theorem pinAfter_set (l : Line) (v : Level) (ok : Bool) (p : PinState) :
    pinAfter (.set l v) ok p =
      if ok then (if v then .out1 else .out0) else if p = .out0 ∨ p = .out1 ∨ p = .outX then .outX else .unknown := by
  cases ok with
  | true => rfl
  | false => simp only [pinAfter, PinState.isOutput_iff, Bool.false_eq_true, if_false]

theorem pinAfter_rel (l : Line) (ok : Bool) (p : PinState) :
    pinAfter (.rel l) ok p = if ok then .input else .unknown := by
  cases ok <;> rfl

/-! ## The shared operation -/

/-- A line operation asks the oracle once; the answer decides the outcome, the event, the driver of its line and the sticky
bit, and is used up (R130, R38). -/
theorem lineOp_eq_of_pinAfter {op : LineOp} {b : Bus} {p : Bool → PinState}
    (hp : ∀ ok, pinAfter op ok (b.pin.get (lineOf op)) = p ok) :
    lineOp op b =
      let ok := askOracle b op
      let b' : Bus :=
        { pin := b.pin.set (lineOf op) (p ok), trace := b.trace ++ [eventOf ok op]
          ioFailed := b.ioFailed || !ok, answers := b.answers.tail }
      if ok then .ok b' else .ioError b' := by
  simp only [lineOp, afterLineOp, hp]

end Sys2Proof.Machine

/-! ## The obligations -/

open Sys2Proof Sys2Proof.Machine

/-- Settles O17: the law of `lineOp` with the driver after output enable. -/
theorem lineCfgOutAsTheRuleSays : Obligations.LineCfgOutAsTheRuleSays :=
  fun l _ => lineOp_eq_of_pinAfter fun ok => pinAfter_cfgOut l ok _

/-- Settles O18: the law of `lineOp` with the driver after a write. -/
theorem lineSetAsTheRuleSays : Obligations.LineSetAsTheRuleSays :=
  fun l v _ => lineOp_eq_of_pinAfter fun ok => pinAfter_set l v ok _

/-- Settles O19: the law of `lineOp` with the driver after a release. -/
theorem lineReleaseAsTheRuleSays : Obligations.LineReleaseAsTheRuleSays :=
  fun l _ => lineOp_eq_of_pinAfter fun ok => pinAfter_rel l ok _

end

section
/-! SUPPORT. The statements about timing (41_timing.md): the half period is the largest whole number whose product with the
clock stays within half a second's microseconds (R152, D5), and the mode asks whether it reaches 1000 (R155). -/

namespace Sys2Proof.Machine

/-- The floor of R152 (D5) as a bound from below; the zero of R153, R154 and the clock of R155 are its instances. -/
theorem le_calcHalfPeriod_iff {f : Nat} (hf : 1 ≤ f) (n : Nat) : n ≤ calcHalfPeriod f ↔ n * f ≤ 500000 :=
  Nat.le_div_iff_mul_le hf

theorem calcHalfPeriod_eq_zero_iff {f : Nat} (hf : 1 ≤ f) : calcHalfPeriod f = 0 ↔ 500000 < f := by
  have one := le_calcHalfPeriod_iff hf 1
  omega

theorem delayMode_eq_sleep_iff (h : Nat) : delayMode h = .sleep ↔ 1000 ≤ h := by
  by_cases hh : 1000 ≤ h <;> simp [delayMode, hh]

theorem delayMode_calcHalfPeriod_eq_sleep_iff {f : Nat} (hf : 1 ≤ f) :
    delayMode (calcHalfPeriod f) = .sleep ↔ f ≤ 500 := by
  rw [delayMode_eq_sleep_iff, le_calcHalfPeriod_iff hf]
  omega

end Sys2Proof.Machine

/-! ## The obligations -/

open Sys2Proof Sys2Proof.Machine

/-- Settles O21: the bound, the zero and the mode follow from the floor's bound from below. -/
theorem halfPeriodAndModeFollowTheClock : Obligations.HalfPeriodAndModeFollowTheClock :=
  fun f hf => ⟨rfl, Nat.div_le_self 500000 f, (le_calcHalfPeriod_iff hf _).mp le_rfl, calcHalfPeriod_eq_zero_iff hf,
    delayMode_calcHalfPeriod_eq_sleep_iff hf⟩

/-- Settles O20: a delay is the append of its event, whose mode is R155's test. -/
theorem delayAppendsOneEvent : Obligations.DelayAppendsOneEvent :=
  fun _ _ => rfl

end

section
/-! SUPPORT. The statements about the Bit Encoder (42_bit_encoder.md): the events a bit appends and the lines it leaves (R171),
and the bits of a byte in time order (R172, R173). That SEND_BIT and SEND_BYTE perform these events is Laws/Tracks.lean. -/

namespace Sys2Proof.Machine

/-! ## SEND_BIT -/

theorem preEdge_eq_decide_falling (c : BusConfig) : c.preEdge = decide (c.activeEdge = .falling) := by
  rcases h : c.activeEdge <;> simp [BusConfig.preEdge, h]

/-- A bit leaves the data line at its level and the clock at the post-edge level (R171); its events carry no failure. -/
theorem busAfter_bitEvents (c : BusConfig) (x : Level) (b : Bus) (rest : List Bool) :
    busAfter b (bitEvents c x) rest =
      { pin := { b.pin with scl := PinState.out c.postEdge, sda := PinState.out x }
        trace := b.trace ++ bitEvents c x, ioFailed := b.ioFailed, answers := rest } := by
  have noFailure : (bitEvents c x).any isFailed = false := by simpa using bitEvents_ok c x
  rw [busAfter, noFailure, Bool.or_false]
  rfl

/-! ## SEND_BYTE -/

theorem byteBits_eq_map_range (lsbFirst : Bool) (b : Byte) :
    byteBits lsbFirst b = (List.range 8).map fun i => b.getLsbD (if lsbFirst then i else 7 - i) := by
  cases lsbFirst <;> rfl

/-- SEND_BYTE when all its line operations succeed: its bits' events and its working registers, and nothing else (R172). -/
theorem sendByte_ok (c : BusConfig) (d : Option Level) (b : Byte) {s : State} {rest : List Bool}
    (h : s.bus.answers = List.replicate (3 * (byteWithDc c.lsbFirst d b).length) true ++ rest) :
    sendByte c d b s = .ok
      { s with
        bus := busAfter s.bus ((byteWithDc c.lsbFirst d b).flatMap (bitEvents c)) rest
        work := workAfterByte d s.work } := by
  have succeed : ∀ e ∈ (byteWithDc c.lsbFirst d b).flatMap (bitEvents c), isFailed e = false := by
    intro e he
    obtain ⟨x, -, hx⟩ := List.mem_flatMap.mp he
    exact bitEvents_ok c x e hx
  rw [← lineCount_flatMap_bits c] at h
  exact (sendByte_tracks c d b s).1 _ (perform_ok succeed h)

end Sys2Proof.Machine

/-! ## The obligations -/

open Sys2Proof Sys2Proof.Machine

/-- Settles O22: SEND_BIT performs the bit's events, all of them or up to the failure of its line operation `k`. -/
theorem sendBitMakesOneClockCycle : Obligations.SendBitMakesOneClockCycle := by
  intro c x b rest
  simp only [← preEdge_eq_decide_falling, sendBit_performs]
  refine ⟨fun succeed => ?_, fun k hk fail => perform_fail (bitEvents_ok c x) hk fail⟩
  exact (perform_ok (bitEvents_ok c x) succeed).trans (congrArg Flow.ok (busAfter_bitEvents c x b rest))

/-- Settles O23: the byte's bits in time order are the discriminator and the eight bits as the statement lists them. -/
theorem sendByteSendsItsBitsInOrder : Obligations.SendByteSendsItsBitsInOrder := by
  intro c d x s rest
  simp only [← byteBits_eq_map_range]
  exact fun succeed => ⟨sendByte_ok c d x succeed, flatMap_bits_length c _⟩

end

section
/-! SUPPORT. The statements about the Frame Orchestrator (43_frame.md): how a frame format ends when its line operations succeed
and when one fails, what it leaves unchanged, and the shape of a frame's events. That SEND_FRAME performs these events is
Laws/Tracks.lean, what the sampler records of them Laws/Sampler.lean. -/

namespace Sys2Proof.Machine

/-! ## How a selected format ends -/

section
variable {k : FrameKind} {p : DcPolicy} {w : Width} {s t : State} {c : BusConfig} {rest : List Bool}

/-- A selected frame whose line operations all succeed appends its events and leaves its working registers (R192). -/
theorem exec_frame_ok (hs : s.phase = .transacting) (hc : s.cfg = some c) (hp : c.dcPolicy = p) (hw : c.bytes k = w)
    (h : s.bus.answers = List.replicate (3 * frameLength p w + 5) true ++ rest) (v : Word) :
    exec (frameInstr k p w v) s = .next
      { s with bus := busAfter s.bus (frameEvents c k v) rest, work := workAfterFrame c k v s.work } := by
  subst hp hw
  rw [← lineCount_frameEvents c k v] at h
  exact (exec_frame_eq hs hc k v).1 _ (perform_ok (frameEvents_ok c k v) h)

/-- A selected frame whose line operation `j` fails stops there and ends the TRANSMIT with `IoError` (R199, R219). -/
theorem exec_frame_fails (hs : s.phase = .transacting) (hc : s.cfg = some c) (hp : c.dcPolicy = p) (hw : c.bytes k = w)
    {j : Nat} (hj : j < 3 * frameLength p w + 5) (h : s.bus.answers = List.replicate j true ++ false :: rest) (v : Word) :
    exec (frameInstr k p w v) s = .next (afterTransmit s (busAfter s.bus (failAt j (frameEvents c k v)) rest) .ioError) := by
  subst hp hw
  rw [← lineCount_frameEvents c k v] at hj
  exact (exec_frame_eq hs hc k v).2 _ (perform_fail (frameEvents_ok c k v) hj h)

/-- A frame that ends was sent inside a TRANSMIT, and has changed the lines and the working registers only, or has failed and
ended the TRANSMIT (R192, R199). -/
theorem Effect.of_frame {v : Word} (h : Effect s (frameInstr k p w v) t) :
    s.phase = .transacting ∧
    ((∃ c b, t = { s with bus := b, work := workAfterFrame c k v s.work }) ∨
      ∃ b, b.ioFailed = true ∧ t = afterTransmit s b .ioError) := by
  cases h with
  | frameOk _ c _ _ hi hs =>
    obtain ⟨rfl, -, -, rfl⟩ := (frameInstr_inj ..).mp hi
    exact ⟨hs, .inl ⟨c, _, rfl⟩⟩
  | frameFails _ _ _ _ rest _ hs _ hj => exact ⟨hs, .inr ⟨_, busAfter_failAt_ioFailed s.bus hj rest, rfl⟩⟩
  | _ => simp_all

end

/-! ## The events of a frame -/

/-- A frame's events are successful writes and delays of half a period (R109). -/
theorem mem_frameEvents {c : BusConfig} {k : FrameKind} {v : Word} {e : Event} (h : e ∈ frameEvents c k v) :
    (∃ l x, e = .set l x true) ∨ e = delayEvent c.halfPeriodUs := by
  simp only [frameEvents, List.mem_append, List.mem_flatMap] at h
  rcases h with (h | ⟨x, -, h⟩) | h
  · simp only [openEvents, List.mem_cons, List.not_mem_nil, or_false] at h
    rcases h with rfl | rfl | rfl <;> simp
  · simp only [bitEvents, List.mem_cons, List.not_mem_nil, or_false] at h
    rcases h with rfl | rfl | rfl | rfl | rfl <;> simp
  · simp only [closeEvents, List.mem_cons, List.not_mem_nil, or_false] at h
    rcases h with rfl | rfl | rfl | rfl | rfl <;> simp

/-- The line operations of a frame are its writes (R198). -/
theorem countP_isSetEvent_frameEvents (c : BusConfig) (k : FrameKind) (v : Word) :
    (frameEvents c k v).countP isSetEvent = 3 * frameLength c.dcPolicy (c.bytes k) + 5 := by
  rw [← lineCount_frameEvents c k v, lineCount]
  refine List.countP_congr fun e he => ?_
  rcases mem_frameEvents he with ⟨l, x, rfl⟩ | rfl <;> exact Iff.rfl

/-- An event is a line operation or a delay. -/
theorem length_eq_lineCount_add_delays (es : List Event) : es.length = lineCount es + es.countP isDelayEvent := by
  have delay_iff : ∀ e, isDelayEvent e = decide ¬ isLineEvent e = true := by rintro ⟨⟩ <;> rfl
  rw [funext delay_iff, lineCount, ← List.length_eq_countP_add_countP]

/-- Only a delay requests time (R159). -/
theorem requestedUs_of_no_delay {e : Event} (h : isDelayEvent e = false) : requestedUs e = 0 := by
  cases e with
  | dly us m => cases h
  | _ => rfl

/-- Delays of one length sum to their count times that length (R159). -/
theorem totalRequestedUs_of_equal_delays {es : List Event} {us : Nat}
    (hes : ∀ e ∈ es, isDelayEvent e = true → requestedUs e = us) : totalRequestedUs es = es.countP isDelayEvent * us := by
  induction es with
  | nil => simp [totalRequestedUs]
  | cons e es ih =>
    have tail : (es.map requestedUs).sum = es.countP isDelayEvent * us := ih fun x hx => hes x (List.mem_cons_of_mem e hx)
    rw [totalRequestedUs, List.map_cons, List.sum_cons, tail, List.countP_cons]
    cases hd : isDelayEvent e with
    | true => rw [hes e List.mem_cons_self hd, if_pos rfl]; ring
    | false => rw [requestedUs_of_no_delay hd, if_neg Bool.false_ne_true]; ring

/-- What a frame does between its assert of `CS` and the delay before its deassert (R196). -/
def innerEvents (c : BusConfig) (k : FrameKind) (v : Word) : List Event :=
  .set .scl c.preEdge true :: (c.frameBits k v).flatMap (bitEvents c) ++ [.set .scl c.sclIdle true, .set .sda c.sdaIdle true]

theorem frameEvents_eq_bracket (c : BusConfig) (k : FrameKind) (v : Word) :
    frameEvents c k v =
      [.set .cs c.csActive true, delayEvent c.halfPeriodUs] ++ innerEvents c k v ++
        [delayEvent c.halfPeriodUs, .set .cs (!c.csActive) true, delayEvent c.halfPeriodUs] := by
  simp [frameEvents, openEvents, innerEvents, closeEvents]

theorem eventLine_bitEvents_ne_cs (c : BusConfig) (x : Level) : ∀ e ∈ bitEvents c x, eventLine e ≠ some .cs := by
  simp [bitEvents, eventLine, delayEvent]

theorem eventLine_innerEvents_ne_cs (c : BusConfig) (k : FrameKind) (v : Word) :
    ∀ e ∈ innerEvents c k v, eventLine e ≠ some .cs := by
  intro e he
  simp only [innerEvents, List.cons_append, List.mem_cons, List.mem_append, List.mem_flatMap, List.not_mem_nil, or_false] at he
  rcases he with rfl | ⟨x, -, he⟩ | rfl | rfl
  · simp [eventLine]
  · exact eventLine_bitEvents_ne_cs c x e he
  · simp [eventLine]
  · simp [eventLine]

end Sys2Proof.Machine

/-! ## The obligations -/

open Sys2Proof Sys2Proof.Machine

/-- Settles O24: the frame performs its events, all of them. -/
theorem frameFormatsComplete : Obligations.FrameFormatsComplete := by
  intro k p w v s c rest hs hc hp hw succeed
  rw [← frameLength_eq] at succeed
  exact exec_frame_ok hs hc hp hw succeed v

/-- Settles O25: the frame performs its events up to the failure of its line operation `j`. -/
theorem frameFailureEndsTheTransmit : Obligations.FrameFailureEndsTheTransmit := by
  intro k p w v s c j rest hs hc hp hw hj fail
  rw [← frameLength_eq] at hj
  exact exec_frame_fails hs hc hp hw hj fail v

/-- Settles O26, by the two ways a frame ends. -/
theorem frameFormatsChangeNothingElse : Obligations.FrameFormatsChangeNothingElse := by
  intro k p w v s t h
  obtain ⟨hs, ⟨c, b, rfl⟩ | ⟨b, failed, rfl⟩⟩ := (exec_effect h).of_frame
  · exact ⟨rfl, rfl, rfl, rfl, .inl ⟨hs, rfl, rfl, rfl, fun _ => rfl⟩⟩
  · exact ⟨rfl, rfl, rfl, rfl, .inr ⟨rfl, rfl, rfl, rfl, rfl, failed⟩⟩

/-- Settles O28: the delays are the events that are no line operations, and each requests half a period. -/
theorem frameEventCounts : Obligations.FrameEventCounts := by
  intro c k v
  rw [← frameLength_eq]
  intro n
  have delays : (frameEvents c k v).countP isDelayEvent = 2 * n + 3 := by
    have all := length_eq_lineCount_add_delays (frameEvents c k v)
    rw [frameEvents_length, lineCount_frameEvents] at all
    omega
  have halfPeriods : ∀ e ∈ frameEvents c k v, isDelayEvent e = true → requestedUs e = c.halfPeriodUs := by
    intro e he hd
    rcases mem_frameEvents he with ⟨l, x, rfl⟩ | rfl
    · cases hd
    · rfl
  exact ⟨frameEvents_length c k v, countP_isSetEvent_frameEvents c k v, delays,
    by rw [totalRequestedUs_of_equal_delays halfPeriods, delays]⟩

/-- Settles O32: the frame that completes leaves the lines at rest, and its events record its bits. -/
theorem framesRecordTheirBits : Obligations.FramesRecordTheirBits := by
  intro k p w v s c rest hs hc hp hw succeed
  rw [← frameLength_eq] at succeed ⊢
  refine ⟨_, frameEvents c k v, exec_frame_ok hs hc hp hw succeed v, rfl, ?_, frame_rest c k v s.bus.pin, ?_⟩
  · rw [frameEvents_length, hp, hw]
  · rw [recorded_frame, BusConfig.frameBits, hp, hw]

/-- Settles O30: what stands between the assert and the deassert writes the clock and the data line. -/
theorem framesAreBracketedByChipSelect : Obligations.FramesAreBracketedByChipSelect :=
  fun c k v => ⟨innerEvents c k v, frameEvents_eq_bracket c k v, eventLine_innerEvents_ne_cs c k v⟩

/-- Settles O31: the last writes of a frame are those of the rest levels. -/
theorem framesLeaveTheLinesAtRest : Obligations.FramesLeaveTheLinesAtRest :=
  frame_rest

end

section
/-! SUPPORT. The statements about the host operations (44_host_ops.md): how CREATE, TRANSMIT and TEARDOWN end when their line
operations succeed and when one fails, what a step runs next, and that a TRANSMIT is its frames run one by one. That the
operations perform their waveforms is Laws/HostOps.lean, CREATE's decoding is Laws/Create.lean. -/

namespace Sys2Proof.Machine

/-! ## CREATE -/

section
variable {o : Options} {s t : State} {c : BusConfig} {x y z : LineBinding} {rest : List Bool}

/-- The options that do not decode are those that are not valid (R212). -/
theorem decodeOptions_eq_none_iff {p : Platform} : decodeOptions p o = none ↔ ¬ OptionsValid p o := by
  constructor
  · intro hd hv
    obtain ⟨d, hd'⟩ := decodeOptions_of_valid hv
    cases hd.symm.trans hd'
  · intro hv
    cases hd : decodeOptions p o with
    | none => rfl
    | some d => exact absurd (decodeOptions_some hd).1 hv

/-- A CREATE whose options decode hands over `Ok` or `IoError` when it ends (R213, R214). -/
theorem Effect.create_result {d : Decoding} (h : Effect s (.create o) t) (hd : decodeOptions s.plat o = some d) :
    t.results = s.results ++ [.ok] ∨ t.results = s.results ++ [.ioError] := by
  cases h with
  | createInvalid _ hi _ hn =>
    cases hi
    cases hn.symm.trans hd
  | createOk => exact .inl rfl
  | createFails => exact .inr rfl
  | _ => simp_all

/-- Only with valid options does a CREATE hand over another result than `InvalidArgument` (R212). -/
theorem create_valid_ne_invalidArgument (hv : OptionsValid s.plat o) (h : exec (.create o) s = .next t) :
    t.results ≠ s.results ++ [.invalidArgument] := by
  obtain ⟨d, hd⟩ := decodeOptions_of_valid hv
  rcases (exec_effect h).create_result hd with hr | hr <;> simp [hr]

/-- CREATE with valid options on three different pins: its line operations decide (R211, D24). -/
theorem exec_create_of_valid (hp : s.phase = .uninitialized) (hv : OptionsValid s.plat o) (hc : DecodedFrom s.plat o c)
    (hx : BoundAs o.csLine x) (hy : BoundAs o.sclLine y) (hz : BoundAs o.sdaLine z) (hxy : x ≠ y) (hxz : x ≠ z) (hyz : y ≠ z) :
    (∀ b, createLines c s.bus = .ok b → exec (.create o) s = .next
      (reply .ok { s with phase := .idle, cfg := some c, bind := { cs := some x, scl := some y, sda := some z }, bus := b })) ∧
    (∀ b, createLines c s.bus = .ioError b → exec (.create o) s = .next (raise .createIo { s with bus := b })) := by
  have apart : pinsAliased { cfg := c, cs := x, scl := y, sda := z } = false := by simp [pinsAliased, hxy, hxz, hyz]
  have hexec := execCreate_eq hp (decodeOptions_eq hv hc hx hy hz) apart
  refine ⟨fun b hb => ?_, fun b hb => ?_⟩ <;> rw [hb] at hexec <;> exact hexec

/-- The six events of a CREATE leave the lines at rest (R211, R39). -/
theorem busAfter_createEvents (c : BusConfig) (b : Bus) (rest : List Bool) :
    busAfter b (createEvents c) rest =
      { pin := { cs := PinState.out (!c.csActive), scl := PinState.out c.sclIdle, sda := PinState.out c.sdaIdle }
        trace := b.trace ++ createEvents c, ioFailed := b.ioFailed, answers := rest } := by
  have noFailure : (createEvents c).any isFailed = false := rfl
  rw [busAfter, noFailure, Bool.or_false]
  rfl

theorem unwoundLines_eq (j : Nat) :
    unwoundLines j = if j = 0 then [] else if j = 1 then [.cs] else if j = 2 then [.scl, .cs] else [Line.sda, .scl, .cs] := by
  match j with
  | 0 | 1 | 2 | _ + 3 => rfl

theorem unwoundLines_length (j : Nat) : (unwoundLines j).length = min j 3 := by
  match j with
  | 0 | 1 | 2 => rfl
  | _ + 3 => simp [unwoundLines]

end

/-! ## TRANSMIT -/

section
variable {cmd : Option Word} {ps : Option (List Byte)} {s t : State} {c : BusConfig} {rest : List Bool}

/-- A TRANSMIT whose line operations all succeed (R215). -/
theorem exec_transmit_ok (hp : s.phase = .idle) (hc : s.cfg = some c)
    (h : s.bus.answers = List.replicate (lineCount (transmitEvents c cmd ps)) true ++ rest) :
    exec (.transmit cmd ps) s = .next (afterTransmit s (busAfter s.bus (transmitEvents c cmd ps) rest) .ok) :=
  (execTransmit_eq hp hc cmd ps).1 _ (perform_ok (transmitEvents_ok c cmd ps) h)

/-- A TRANSMIT whose line operation `j` fails (R219). -/
theorem exec_transmit_fails (hp : s.phase = .idle) (hc : s.cfg = some c) {j : Nat}
    (hj : j < lineCount (transmitEvents c cmd ps)) (h : s.bus.answers = List.replicate j true ++ false :: rest) :
    exec (.transmit cmd ps) s =
      .next (afterTransmit s (busAfter s.bus (failAt j (transmitEvents c cmd ps)) rest) .ioError) :=
  (execTransmit_eq hp hc cmd ps).2 _ (perform_fail (transmitEvents_ok c cmd ps) hj h)

/-- A TRANSMIT that hands over `Ok` has performed all its events (R215). -/
theorem Effect.transmit_trace (h : Effect s (.transmit cmd ps) t) (hc : s.cfg = some c)
    (hr : t.results = s.results ++ [.ok]) : t.bus.trace = s.bus.trace ++ transmitEvents c cmd ps := by
  cases h with
  | transmitOk _ _ _ _ hi _ hc' =>
    cases hi
    cases hc.symm.trans hc'
    rfl
  | transmitFails => simp [afterTransmit] at hr
  | _ => simp_all

theorem width_bytes_pos (w : Width) : 0 < w.bytes := by
  cases w <;> decide

/-- A TRANSMIT without a command word and without a whole parameter word has no events (R220). -/
theorem transmitEvents_eq_nil (hcmd : commandWord cmd = none) (hlen : (bufferBytes ps).length < c.paramBytes.bytes) :
    transmitEvents c cmd ps = [] := by
  simp [transmitEvents, transmitWords, hcmd, Nat.div_eq_of_lt hlen]

/-- One word per frame (R218). -/
theorem transmitWords_length (c : BusConfig) (cmd : Option Word) (bytes : List Byte) :
    (transmitWords c cmd bytes).length = (commandWord cmd).toList.length + bytes.length / c.paramBytes.bytes := by
  simp [transmitWords]

/-- A word is read from its own bytes only. -/
theorem paramValue_take (bytes : List Byte) {w i n : Nat} (hi : i < n) :
    paramValue (bytes.take (n * w)) w i = paramValue bytes w i := by
  have inside : i * w + w ≤ n * w := by
    calc i * w + w = (i + 1) * w := by ring
      _ ≤ n * w := Nat.mul_le_mul_right w hi
  rw [paramValue, paramValue]
  congr 1
  refine List.map_congr_left fun j hj => ?_
  have hlt : i * w + j < n * w := by
    have := List.mem_range.mp hj
    omega
  simp only [List.getD_eq_getElem?_getD, List.getElem?_take_of_lt hlt]

/-- The trailing `L mod W` bytes stand for no event (R218). -/
theorem transmitEvents_take (c : BusConfig) (cmd : Option Word) (bytes : List Byte) :
    transmitEvents c cmd (some (bytes.take (bytes.length / c.paramBytes.bytes * c.paramBytes.bytes))) =
      transmitEvents c cmd (some bytes) := by
  have length_take : (bytes.take (bytes.length / c.paramBytes.bytes * c.paramBytes.bytes)).length / c.paramBytes.bytes =
      bytes.length / c.paramBytes.bytes := by
    rw [List.length_take, Nat.min_eq_left (Nat.div_mul_le_self _ _), Nat.mul_div_cancel _ (width_bytes_pos c.paramBytes)]
  simp only [transmitEvents, transmitWords, bufferBytes, Option.getD_some, length_take]
  congr 2
  refine List.map_congr_left fun i hi => ?_
  rw [paramValue_take bytes (List.mem_range.mp hi)]

end

/-! ## Steps -/

section
variable {s : State} {c : BusConfig} {r : FrameReq} {rest : List FrameReq}

theorem step_of_pending {i : Instr} {q : List Instr} (hp : s.phase ≠ .transacting) (hq : s.pending = i :: q) :
    step s = exec i { s with pending := q } := by
  simp [step, fetch, hp, hq]

theorem step_of_no_pending (hp : s.phase ≠ .transacting) (hq : s.pending = []) : step s = .refused .noOperationIssued := by
  simp [step, fetch, hp, hq]

theorem step_of_no_frame (hp : s.phase = .transacting) (ht : s.todo = []) : step s = .next (reply .ok (endTransmit s)) := by
  simp [step, fetch, hp, ht]

theorem step_of_no_cfg (hp : s.phase = .transacting) (hc : s.cfg = none) (ht : s.todo = r :: rest) :
    step s = .fault .configurationAbsent := by
  simp [step, fetch, hp, hc, ht]

theorem step_of_frame (hp : s.phase = .transacting) (hc : s.cfg = some c) (ht : s.todo = r :: rest) {v : Word}
    (hw : frameWord c s.mem r = some v) :
    step s = exec (frameInstr (frameKind r) c.dcPolicy (c.bytes (frameKind r)) v)
      (State.setIndex { s with todo := rest } r) := by
  simp [step, fetch, hp, hc, ht, fetchFrame, hw]

theorem step_of_no_word (hp : s.phase = .transacting) (hc : s.cfg = some c) (ht : s.todo = r :: rest)
    (hw : frameWord c s.mem r = none) : step s = .fault .bufferOffsetAbsent := by
  simp [step, fetch, hp, hc, ht, fetchFrame, hw]

end

/-! ## A TRANSMIT frame by frame -/

section
variable {s t : State} {c : BusConfig}

/-- The frame `cfg` selects is SEND_FRAME, and an error in it the TRANSMIT's (R192, R199). -/
theorem exec_frame_selected (hp : s.phase = .transacting) (hc : s.cfg = some c) (k : FrameKind) (v : Word) :
    exec (frameInstr k c.dcPolicy (c.bytes k) v) s = .next (afterFrame (sendFrame c k v s)) := by
  obtain ⟨m, hm⟩ := exec_frameInstr k c.dcPolicy (c.bytes k) v s
  simp [hm, runFrame, hp, hc]

/-- A SEND_FRAME that ends has changed the lines and the working registers only. -/
theorem sendFrame_ok {k : FrameKind} {v : Word} (h : sendFrame c k v s = .ok t) :
    ∃ b w, t = { s with bus := b, work := w } := by
  obtain ⟨hok, hfail⟩ := sendFrame_tracks c k v s
  cases hb : perform (frameEvents c k v) s.bus with
  | ok b =>
    cases (hok b hb).symm.trans h
    exact ⟨_, _, rfl⟩
  | ioError b =>
    obtain ⟨w, hw⟩ := hfail b hb
    cases hw.symm.trans h

/-- A run whose first step has a next state goes on from there. -/
theorem run_of_step_next {M : Host.Core} {s t : M.State} (h : M.step s = .next t) (n : Nat) : M.run (n + 1) s = M.run n t := by
  rw [Host.Core.run, h]

theorem run_of_step_fault {M : Host.Core} {s : M.State} {f : M.Fault} (h : M.step s = .fault f) (n : Nat) :
    M.run (n + 1) s = .fault f := by
  rw [Host.Core.run, h]

section
variable {r : FrameReq} {rest : List FrameReq} {v : Word}

theorem sendFrames_of_no_word (hw : frameWord c s.mem r = none) : sendFrames c (r :: rest) s = .fault .bufferOffsetAbsent := by
  simp only [sendFrames, hw]

theorem sendFrames_of_ok (hw : frameWord c s.mem r = some v)
    (hf : sendFrame c (frameKind r) v (State.setIndex { s with todo := rest } r) = .ok t) :
    sendFrames c (r :: rest) s = sendFrames c rest t := by
  simp only [sendFrames, hw, hf]

theorem sendFrames_of_ioError (hw : frameWord c s.mem r = some v)
    (hf : sendFrame c (frameKind r) v (State.setIndex { s with todo := rest } r) = .ioError t) :
    sendFrames c (r :: rest) s = .next (raise .transmitIo t) := by
  simp only [sendFrames, hw, hf]

end

/-- The frame loop of a TRANSMIT is the machine's steps from the state that holds its frames, one a frame and one for the
return (R215, R231). -/
theorem run_eq_sendFrames (c : BusConfig) (rs : List FrameReq) : ∀ s : State, s.phase = .transacting → s.cfg = some c →
    s.todo = rs → ∃ n, n ≤ rs.length + 1 ∧ Host.Core.run Sys2Proof.core n s = sendFrames c rs s := by
  induction rs with
  | nil => exact fun s hp _ ht => ⟨1, le_rfl, run_of_step_next (M := Sys2Proof.core) (step_of_no_frame hp ht) 0⟩
  | cons r rest ih =>
    intro s hp hc ht
    have one_le : 1 ≤ (r :: rest).length + 1 := Nat.le_add_left 1 _
    cases hw : frameWord c s.mem r with
    | none =>
      have hstep := step_of_no_word hp hc ht hw
      exact ⟨1, one_le, (run_of_step_fault (M := Sys2Proof.core) hstep 0).trans (sendFrames_of_no_word hw).symm⟩
    | some v =>
      have hstep := step_of_frame hp hc ht hw
      rw [exec_frame_selected (by simpa using hp) (by simpa using hc)] at hstep
      cases hf : sendFrame c (frameKind r) v (State.setIndex { s with todo := rest } r) with
      | ok t =>
        rw [hf, afterFrame] at hstep
        obtain ⟨b, w, ht⟩ := sendFrame_ok hf
        obtain ⟨n, hn, hrun⟩ := ih t (by simpa [ht] using hp) (by simpa [ht] using hc) (by simp [ht])
        refine ⟨n + 1, Nat.succ_le_succ hn, (run_of_step_next (M := Sys2Proof.core) hstep n).trans ?_⟩
        exact hrun.trans (sendFrames_of_ok hw hf).symm
      | ioError t =>
        rw [hf, afterFrame] at hstep
        exact ⟨1, one_le, (run_of_step_next (M := Sys2Proof.core) hstep 0).trans (sendFrames_of_ioError hw hf).symm⟩

end

/-! ## TEARDOWN -/

section
variable {s t : State} {c : BusConfig} {rest : List Bool}

/-- A TEARDOWN whose releases all succeed (R221, R224). -/
theorem exec_teardown_ok (hp : s.phase = .idle) (hc : s.cfg = some c)
    (h : s.bus.answers = List.replicate (lineCount (teardownEvents c.keepCs)) true ++ rest) :
    exec .teardown s = .next (afterTeardown s (busAfter s.bus (teardownEvents c.keepCs) rest) .ok) :=
  (execTeardown_eq hp hc).1 _ (perform_ok (teardownEvents_ok c.keepCs) h)

/-- A TEARDOWN whose release `j` fails (R223). -/
theorem exec_teardown_fails (hp : s.phase = .idle) (hc : s.cfg = some c) {j : Nat}
    (hj : j < lineCount (teardownEvents c.keepCs)) (h : s.bus.answers = List.replicate j true ++ false :: rest) :
    exec .teardown s = .next (afterTeardown s (busAfter s.bus (failAt j (teardownEvents c.keepCs)) rest) .ioError) :=
  (execTeardown_eq hp hc).2 _ (perform_fail (teardownEvents_ok c.keepCs) hj h)

/-- The releases of a TEARDOWN leave the pins inputs, and a kept `CS` as it was (R221, R222). -/
theorem busAfter_teardownEvents (keepCs : Bool) (b : Bus) (rest : List Bool) :
    busAfter b (teardownEvents keepCs) rest =
      { pin := { cs := if keepCs then b.pin.cs else .input, scl := .input, sda := .input }
        trace := b.trace ++ teardownEvents keepCs, ioFailed := b.ioFailed, answers := rest } := by
  have noFailure : (teardownEvents keepCs).any isFailed = false := by simpa using teardownEvents_ok keepCs
  rw [busAfter, noFailure, Bool.or_false]
  cases keepCs <;> rfl

/-- The releases of a TEARDOWN up to the one that fails, whose line is not known; the lines not reached keep their state
(R223, D14). -/
theorem busAfter_failAt_teardownEvents (keepCs : Bool) {j : Nat} (hj : j < if keepCs then 2 else 3) (b : Bus)
    (rest : List Bool) :
    busAfter b (failAt j (teardownEvents keepCs)) rest =
      { pin :=
          if j = 0 then { b.pin with scl := .unknown }
          else if j = 1 then { b.pin with scl := .input, sda := .unknown }
          else { cs := .unknown, scl := .input, sda := .input }
        trace := b.trace ++
          (if j = 0 then [.rel .scl false]
          else if j = 1 then [.rel .scl true, .rel .sda false]
          else [.rel .scl true, .rel .sda true, .rel .cs false])
        ioFailed := true, answers := rest } := by
  have failed : (b.ioFailed || (failAt j (teardownEvents keepCs)).any isFailed) = true := by
    rw [failAt_any_failed (by rwa [lineCount_teardownEvents]), Bool.or_true]
  rw [busAfter, failed]
  match j, keepCs with
  | 0, _ | 1, _ | 2, false => rfl
  | 2, true => simp at hj
  | j + 3, _ => split at hj <;> omega

/-- An event on another line, and a delay, leave a line's driver (R36). -/
theorem pinsAfterEvent_get_of_ne {l : Line} {e : Event} (h : eventLine e ≠ some l) (p : Lines PinState) :
    (pinsAfterEvent p e).get l = p.get l := by
  have other : ∀ m, eventLine e = some m → l ≠ m := fun m hm hl => h (hl ▸ hm)
  cases e with
  | cfgOut m ok => exact lines_get_set_other p _ (other m rfl)
  | set m v ok => exact lines_get_set_other p _ (other m rfl)
  | rel m ok => exact lines_get_set_other p _ (other m rfl)
  | dly us m => rfl

theorem pinsAfter_get_of_ne {l : Line} {es : List Event} (h : ∀ e ∈ es, eventLine e ≠ some l) (p : Lines PinState) :
    (pinsAfter p es).get l = p.get l := by
  induction es generalizing p with
  | nil => rfl
  | cons e es ih =>
    have first : eventLine e ≠ some l := h e List.mem_cons_self
    exact (ih (fun x hx => h x (List.mem_cons_of_mem e hx)) _).trans (pinsAfterEvent_get_of_ne first p)

theorem eventLine_failedEvent (e : Event) : eventLine (failedEvent e) = eventLine e := by
  cases e <;> rfl

/-- A waveform cut short is on no other lines than the whole (R257). -/
theorem eventLine_failAt_ne {l : Line} {es : List Event} (hok : ∀ e ∈ es, isFailed e = false)
    (h : ∀ e ∈ es, eventLine e ≠ some l) {k : Nat} (hk : k < lineCount es) : ∀ e ∈ failAt k es, eventLine e ≠ some l := by
  obtain ⟨done, e, post, rfl, hfail, -⟩ := failAt_split hok hk
  rw [hfail]
  intro x hx
  rcases List.mem_append.mp hx with hx | hx
  · exact h x (by simp [hx])
  · rw [List.mem_singleton.mp hx, eventLine_failedEvent]
    exact h e (by simp)

/-- A TEARDOWN with the keep flag, whatever its releases answer, leaves `CS` as it was (R222). -/
theorem Effect.teardown_cs (h : Effect s .teardown t) (hc : s.cfg = some c) (hk : c.keepCs = true) :
    s.phase = .idle ∧ t.bus.pin.cs = s.bus.pin.cs := by
  have other : ∀ e ∈ teardownEvents true, eventLine e ≠ some .cs := by simp [teardownEvents, eventLine]
  cases h with
  | teardownOk c' _ _ hp hc' =>
    cases hc.symm.trans hc'
    rw [hk]
    exact ⟨hp, pinsAfter_get_of_ne other s.bus.pin⟩
  | teardownFails c' k _ _ hp hc' hj =>
    cases hc.symm.trans hc'
    rw [hk] at hj ⊢
    exact ⟨hp, pinsAfter_get_of_ne (eventLine_failAt_ne (teardownEvents_ok true) other hj) s.bus.pin⟩
  | _ => simp_all

end

end Sys2Proof.Machine

/-! ## The obligations -/

open Sys2Proof Sys2Proof.Machine

/-- Settles O34: what does not decode is rejected; what decodes ends with another result. -/
theorem createRejectsExactlyInvalidOptions : Obligations.CreateRejectsExactlyInvalidOptions := by
  refine fun o s hp => ⟨⟨fun hn => ?_, fun h hv => create_valid_ne_invalidArgument hv h rfl⟩,
    fun hv t h => create_valid_ne_invalidArgument hv h⟩
  show execCreate o s = _
  rw [execCreate, if_neg (not_not.mpr hp), decodeOptions_eq_none_iff.mpr hn]
  rfl

/-- Settles O35: the six line operations perform the six events. -/
theorem createCompletes : Obligations.CreateCompletes := by
  intro o s c x y z rest hp hv hc hx hy hz hxy hxz hyz succeed
  have h := (exec_create_of_valid hp hv hc hx hy hz hxy hxz hyz).1 _ (createLines_ok succeed)
  rw [busAfter_createEvents] at h
  exact h

/-- Settles O36: the events up to the failure, then the releases of `unwoundLines`. -/
theorem failedCreateUnwinds : Obligations.FailedCreateUnwinds := by
  intro o s c x y z j us rest hp hv hc hx hy hz hxy hxz hyz hj hus fail
  have h := (exec_create_of_valid hp hv hc hx hy hz hxy hxz hyz).2 _
    (createLines_fail hj (hus.trans (unwoundLines_length j).symm) fail)
  rw [unwoundLines_eq] at h
  exact h

/-- Settles O40: the frame loop performs the events of its frames, all of them. -/
theorem transmitCompletes : Obligations.TransmitCompletes := by
  intro cmd params s c rest hp hc dc nc succeed
  have hnc : (commandWord cmd).toList.length = nc := commandWord_length cmd
  refine exec_transmit_ok hp hc ?_
  rw [lineCount_transmitEvents, frameLength_eq, frameLength_eq, hnc]
  exact succeed

/-- Settles O41: the frame loop performs its events up to the failure of line operation `j`. -/
theorem transmitStopsAtTheFirstFailure : Obligations.TransmitStopsAtTheFirstFailure :=
  fun _ _ _ _ _ _ hp hc hj fail => exec_transmit_fails hp hc hj fail

/-- Settles O42: the trailing bytes stand for no event; a TRANSMIT that returns `Ok` performed all its events. -/
theorem transmitSendsTheRuledNumberOfFrames : Obligations.TransmitSendsTheRuledNumberOfFrames := by
  intro cmd bytes s c hp hc dc nc np
  have hnc : (commandWord cmd).toList.length = nc := commandWord_length cmd
  refine ⟨execTransmit_congr fun c' hc' => ?_, fun t h hr => ?_⟩
  · cases hc.symm.trans hc'
    exact transmitEvents_take c cmd bytes
  · refine ⟨_, _, (exec_effect h).transmit_trace hc hr, recorded_transmit c cmd (some bytes), ?_, ?_⟩
    · rw [List.length_map, transmitWords_length, hnc, Nat.add_comm]
      rfl
    · rw [transmitEvents_length, frameLength_eq, frameLength_eq, hnc]
      rfl

/-- Settles O43: the sampler records the bits of each word the TRANSMIT sends. -/
theorem transmitRecordsItsWords : Obligations.TransmitRecordsItsWords := by
  intro cmd bytes s c rest hp hc succeed
  refine ⟨_, transmitEvents c cmd (some bytes), exec_transmit_ok hp hc succeed, rfl, ?_⟩
  rw [recorded_transmit, transmitWords, List.map_append, List.map_map, List.map_map]
  congr 2
  cases cmd with
  | none => rfl
  | some v =>
    show _ = if 0 ≤ v.toInt then _ else _
    by_cases hv : 0 ≤ v.toInt
    · rw [commandWord_of_nonneg hv, if_pos hv]
      rfl
    · rw [commandWord_of_neg (Int.not_le.mp hv), if_neg hv]
      rfl

/-- Settles O46: `run_eq_sendFrames` from the state a TRANSMIT starts its frames in. -/
theorem transmitIsItsFramesStepByStep : Obligations.TransmitIsItsFramesStepByStep := by
  intro cmd params s c hp hc
  obtain ⟨n, hn, hrun⟩ := run_eq_sendFrames c _ (beginTransmit c cmd params s) rfl hc rfl
  refine ⟨n, hn, hrun.trans ?_⟩
  show _ = execTransmit cmd params s
  rw [execTransmit, if_neg (not_not.mpr hp), hc]
  rfl

/-- Settles O47: TEARDOWN performs its releases, all of them. -/
theorem teardownCompletes : Obligations.TeardownCompletes := by
  intro s c rest hp hc succeed
  have h := exec_teardown_ok hp hc (by rwa [lineCount_teardownEvents])
  rw [busAfter_teardownEvents, teardownEvents, ← List.append_assoc] at h
  exact h

/-- Settles O48: TEARDOWN performs its releases up to the one that fails. -/
theorem teardownStopsAtTheFirstFailure : Obligations.TeardownStopsAtTheFirstFailure := by
  intro s c j rest hp hc hj fail
  have h := exec_teardown_fails hp hc (by rwa [lineCount_teardownEvents]) fail
  rw [busAfter_failAt_teardownEvents c.keepCs hj] at h
  exact h

/-- Settles O49: in `Idle` the invariant has the lines at rest, and no release is on `CS`. -/
theorem keptCsStaysInactive : Obligations.KeptCsStaysInactive := by
  intro s t c hs hc hk hf h
  obtain ⟨hp, hcs⟩ := (exec_effect h).teardown_cs hc hk
  obtain ⟨inactive, -, -⟩ := hs.rest (.inl hp) hf c hc
  exact hcs.trans inactive

/-- Settles O8, by the guard each instruction begins with. -/
theorem inadmissibleOperationsAreRefused : Obligations.InadmissibleOperationsAreRefused := by
  refine fun s => ⟨fun o h => if_pos h, fun cmd ps h => if_pos h, fun h => if_pos h, fun h => if_pos h, fun h => if_pos h,
    fun h => if_pos h, fun k p w v h => ?_⟩
  obtain ⟨m, hm⟩ := exec_frameInstr k p w v s
  exact ⟨m, hm.trans (if_pos h)⟩

/-- Settles O9, by the cases of what a step runs; the two kinds of frame are those of `frameWord`. -/
theorem stepRunsTheNextInstruction : Obligations.StepRunsTheNextInstruction := by
  refine fun s => ⟨fun i rest => step_of_pending, step_of_no_pending, step_of_no_frame, fun c v rest hp hc ht => ?_,
    fun c i rest x hp hc ht hx => ?_, fun c i rest hp hc ht hx => ?_, fun r rest hp hc ht => step_of_no_cfg hp hc ht⟩
  · exact step_of_frame hp hc ht (frameWord_command c s.mem v)
  · exact step_of_frame hp hc ht (by rw [frameWord, hx]; rfl)
  · exact step_of_no_word hp hc ht (by rw [frameWord, hx]; rfl)

/-- Settles O44: such a TRANSMIT has no events. -/
theorem emptyTransmitTouchesNothing : Obligations.EmptyTransmitTouchesNothing := by
  intro cmd params s c hp hc hneg hlen
  have noCommand : commandWord cmd = none := by
    cases cmd with
    | none => rfl
    | some v => exact commandWord_of_neg (hneg v rfl)
  have h := (execTransmit_eq hp hc cmd params).1 s.bus (by rw [transmitEvents_eq_nil noCommand hlen, perform_nil])
  rw [afterTransmit, endTransmit, ← hp] at h
  exact h

end

section
/-! SUPPORT. The statements about results and errors (60_exceptions.md): which result an instruction hands to the host, and
what an `IoError` leaves in the trace and on the failing line. Laws/Step.lean says once how an instruction ends (`Effect`). -/

namespace Sys2Proof.Machine

variable {s t : State} {i : Instr}

/-! ## Which result -/

/-- The result is one the instruction may hand over (R250 to R253); a frame's `IoError` is its TRANSMIT's (R199). -/
def MayReturn (i : Instr) : Result → Prop
  | .ok              => (∃ o, i = .create o) ∨ (∃ cmd ps, i = .transmit cmd ps) ∨ i = .teardown
  | .invalidArgument => ∃ o, i = .create o
  | .ioError         =>
    (∃ o, i = .create o) ∨ (∃ cmd ps, i = .transmit cmd ps) ∨ i = .teardown ∨ ∃ k p w v, i = frameInstr k p w v
  | .notSupported    => i = .rxParam ∨ i = .txColor ∨ i = .registerCallbacks

/-- An instruction that ends hands over one result it may return, unless it is a frame that succeeded: that hands over none
(R215). -/
theorem Effect.results (h : Effect s i t) :
    (∃ r, MayReturn i r ∧ t.results = s.results ++ [r]) ∨
    ((∃ k p w v, i = frameInstr k p w v) ∧ t.results = s.results) := by
  cases h with
  | createInvalid o hi => exact .inl ⟨.invalidArgument, ⟨o, hi⟩, rfl⟩
  | createOk o _ _ hi => exact .inl ⟨.ok, .inl ⟨o, hi⟩, rfl⟩
  | createFails o _ _ _ _ hi => exact .inl ⟨.ioError, .inl ⟨o, hi⟩, rfl⟩
  | transmitOk cmd ps _ _ hi => exact .inl ⟨.ok, .inr (.inl ⟨cmd, ps, hi⟩), rfl⟩
  | transmitFails cmd ps _ _ _ hi => exact .inl ⟨.ioError, .inr (.inl ⟨cmd, ps, hi⟩), rfl⟩
  | teardownOk _ _ hi => exact .inl ⟨.ok, .inr (.inr hi), rfl⟩
  | teardownFails _ _ _ hi => exact .inl ⟨.ioError, .inr (.inr (.inl hi)), rfl⟩
  | unsupported hi => exact .inl ⟨.notSupported, hi, rfl⟩
  | frameOk _ _ _ _ hi => exact .inr ⟨⟨_, _, _, _, hi⟩, rfl⟩
  | frameFails _ _ _ _ _ hi => exact .inl ⟨.ioError, .inr (.inr (.inr ⟨_, _, _, _, hi⟩)), rfl⟩

/-- A result handed over is one the instruction may return. -/
theorem Effect.mayReturn (h : Effect s i t) {r : Result} (hr : t.results = s.results ++ [r]) : MayReturn i r := by
  rcases h.results with ⟨r', hm, hr'⟩ | ⟨-, hr'⟩
  · obtain rfl : r' = r := by simpa [hr'] using hr
    exact hm
  · simp [hr'] at hr

/-- An instruction that is no frame hands over a result when it ends. -/
theorem Effect.result_of_hostOp (h : Effect s i t) (hi : ∀ k p w v, i ≠ frameInstr k p w v) :
    ∃ r, MayReturn i r ∧ t.results = s.results ++ [r] := by
  rcases h.results with hr | ⟨⟨k, p, w, v, hf⟩, -⟩
  · exact hr
  · exact absurd hf (hi k p w v)

/-- CREATE never returns `NotSupported` (R253). -/
theorem MayReturn.create {o : Options} {r : Result} (h : MayReturn (.create o) r) :
    r = .ok ∨ r = .invalidArgument ∨ r = .ioError := by
  cases r with
  | notSupported => simp [MayReturn] at h
  | _ => simp

/-- A TRANSMIT returns neither `InvalidArgument` nor `NotSupported` (R251, R253). -/
theorem MayReturn.transmit {cmd : Option Word} {ps : Option (List Byte)} {r : Result} (h : MayReturn (.transmit cmd ps) r) :
    r = .ok ∨ r = .ioError := by
  cases r with
  | invalidArgument | notSupported => simp [MayReturn] at h
  | _ => simp

/-- Nor does TEARDOWN return either of the two (R251, R253). -/
theorem MayReturn.teardown {r : Result} (h : MayReturn .teardown r) : r = .ok ∨ r = .ioError := by
  cases r with
  | invalidArgument | notSupported => simp [MayReturn] at h
  | _ => simp

/-! ## What an `IoError` leaves -/

/-- The event is a failed line operation on this line. -/
def FailedOn (l : Line) (e : Event) : Prop :=
  e = .cfgOut l false ∨ e = .rel l false ∨ ∃ v, e = .set l v false

/-- A line operation, failed, has failed on its line. -/
theorem failedOn_failedEvent {e : Event} (h : isLineEvent e = true) : ∃ l, FailedOn l (failedEvent e) := by
  cases e with
  | cfgOut l ok => exact ⟨l, .inl rfl⟩
  | set l v ok => exact ⟨l, .inr (.inr ⟨v, rfl⟩)⟩
  | rel l ok => exact ⟨l, .inr (.inl rfl)⟩
  | dly us m => simp [isLineEvent] at h

/-- A failed line operation leaves the level of its line not known (R36, D10). -/
theorem FailedOn.pin {l : Line} {e : Event} (h : FailedOn l e) (p : Lines PinState) :
    (pinsAfterEvent p e).get l = .outX ∨ (pinsAfterEvent p e).get l = .unknown := by
  rcases h with rfl | rfl | ⟨v, rfl⟩ <;> rw [pinsAfterEvent, lines_get_set_same]
  · exact .inr rfl
  · exact .inr rfl
  · exact ite_eq_or_eq _ _ _

/-- Releases of other lines leave a line's driver (R36). -/
theorem pinsAfter_releases_get {l : Line} {es : List Event} (hes : ∀ x ∈ es, ∃ m ok, x = .rel m ok)
    (hl : ∀ ok, .rel l ok ∉ es) (p : Lines PinState) : (pinsAfter p es).get l = p.get l := by
  refine pinsAfter_get_of_ne (fun x hx => ?_) p
  obtain ⟨m, ok, rfl⟩ := hes x hx
  intro hm
  cases hm
  exact hl ok hx

/-- The lines `b'` come from `b` by events that succeeded, then one that failed, then the releases `after`; unless one of
these is on the failing line, its level is not known (R257). -/
def PreciseFailure (b b' : Bus) (after : List Event) : Prop :=
  ∃ done l e, b'.trace = b.trace ++ done ++ [e] ++ after ∧ (∀ x ∈ done, isFailed x = false) ∧ FailedOn l e ∧
    (∀ x ∈ after, ∃ m ok, x = .rel m ok) ∧
    ((∀ ok, .rel l ok ∉ after) → b'.pin.get l = .outX ∨ b'.pin.get l = .unknown)

/-- A waveform cut short, and releases after it. -/
theorem preciseFailure_of_failAt {es : List Event} (hes : ∀ e ∈ es, isFailed e = false) {k : Nat} (hk : k < lineCount es)
    {after : List Event} (hafter : ∀ x ∈ after, ∃ m ok, x = .rel m ok) (b : Bus) (rest : List Bool) :
    PreciseFailure b (busAfter b (failAt k es ++ after) rest) after := by
  obtain ⟨done, e, post, rfl, hfail, hline⟩ := failAt_split hes hk
  obtain ⟨l, hl⟩ := failedOn_failedEvent hline
  refine ⟨done, l, failedEvent e, by simp [busAfter, hfail], fun x hx => hes x (by simp [hx]), hl, hafter, fun hrel => ?_⟩
  have hpin : (busAfter b (failAt k (done ++ e :: post) ++ after) rest).pin.get l =
      (pinsAfterEvent (pinsAfter b.pin done) (failedEvent e)).get l := by
    rw [hfail, busAfter, pinsAfter_append, pinsAfter_releases_get hafter hrel, pinsAfter_append]
    rfl
  rw [hpin]
  exact hl.pin _

/-- A waveform cut short, and nothing after it. -/
theorem preciseFailure_of_failAt_last {es : List Event} (hes : ∀ e ∈ es, isFailed e = false) {k : Nat}
    (hk : k < lineCount es) (b : Bus) (rest : List Bool) : PreciseFailure b (busAfter b (failAt k es) rest) [] := by
  simpa using preciseFailure_of_failAt hes hk (after := []) (by simp) b rest

theorem releaseEvents_are_releases (ls : List Line) (us : List Bool) : ∀ x ∈ releaseEvents ls us, ∃ m ok, x = .rel m ok := by
  intro x hx
  obtain ⟨n, hn, rfl⟩ := List.mem_iff_getElem.mp hx
  exact ⟨_, _, List.getElem_zipWith⟩

/-- An instruction that hands over `IoError` has failed precisely; only CREATE releases lines afterwards (R213, R257). -/
theorem Effect.preciseFailure (h : Effect s i t) (hr : t.results = s.results ++ [.ioError]) :
    ∃ after, PreciseFailure s.bus t.bus after ∧ ((∀ o, i ≠ .create o) → after = []) := by
  cases h with
  | createFails o d k us rest hi _ _ _ hk =>
    exact ⟨_, preciseFailure_of_failAt (createEvents_ok d.cfg) hk (releaseEvents_are_releases _ us) s.bus rest,
      fun hn => absurd hi (hn o)⟩
  | transmitFails cmd ps c k rest _ _ _ hk =>
    exact ⟨[], preciseFailure_of_failAt_last (transmitEvents_ok c cmd ps) hk s.bus rest, fun _ => rfl⟩
  | teardownFails c k rest _ _ _ hk =>
    exact ⟨[], preciseFailure_of_failAt_last (teardownEvents_ok c.keepCs) hk s.bus rest, fun _ => rfl⟩
  | frameFails k c v j rest _ _ _ hj =>
    exact ⟨[], preciseFailure_of_failAt_last (frameEvents_ok c k v) hj s.bus rest, fun _ => rfl⟩
  | createInvalid | unsupported => simp [raise] at hr
  | createOk => simp [latchOptions] at hr
  | transmitOk => simp [afterTransmit] at hr
  | teardownOk => simp [afterTeardown] at hr
  | frameOk => simp at hr

end Sys2Proof.Machine

/-! ## The obligations -/

open Sys2Proof Sys2Proof.Machine

/-- Settles O50: the three share one meaning, and `Effect.mayReturn` says that no other instruction has this result. -/
theorem unsupportedOperationsReturnNotSupported : Obligations.UnsupportedOperationsReturnNotSupported := by
  refine ⟨fun i s hi hp => ?_, fun i s t h hr => (exec_effect h).mayReturn hr⟩
  rcases hi with rfl | rfl | rfl <;> exact if_neg (not_not.mpr hp)

/-- Settles O51, by the results each operation may return. -/
theorem eachOperationHandsOverOneResult : Obligations.EachOperationHandsOverOneResult := by
  refine fun s t => ⟨fun o h => ?_, fun cmd ps h => ?_, fun h => ?_, fun h => ?_, fun h => ?_, fun h => ?_⟩
  · obtain ⟨r, hm, hr⟩ := (exec_effect h).result_of_hostOp (by simp)
    exact ⟨r, hm.create, hr⟩
  · obtain ⟨r, hm, hr⟩ := (exec_effect h).result_of_hostOp (by simp)
    exact ⟨r, hm.transmit, hr⟩
  · obtain ⟨r, hm, hr⟩ := (exec_effect h).result_of_hostOp (by simp)
    exact ⟨r, hm.teardown, hr⟩
  · exact ((exec_effect h).of_unsupported (.inl rfl)).2 ▸ rfl
  · exact ((exec_effect h).of_unsupported (.inr (.inl rfl))).2 ▸ rfl
  · exact ((exec_effect h).of_unsupported (.inr (.inr rfl))).2 ▸ rfl

/-- Settles O52: an `IoError` comes from a waveform cut short, and a CREATE's is followed by its unwinding. -/
theorem errorsArePreciseInTheTrace : Obligations.ErrorsArePreciseInTheTrace := by
  intro i s t h hr
  obtain ⟨after, ⟨done, l, e, htrace, hdone, hfailed, hafter, hpin⟩, hlast⟩ := (exec_effect h).preciseFailure hr
  exact ⟨done, l, e, after, htrace, hdone, hfailed, hafter, hlast, hpin⟩

end
